-- ==== Sys2Proof/Word.lean ====
section
/-!
DEFINITION. The widths of siphash_core (spec/00_scope.md R8, R9, R10): a data word of 64 bits, a message
byte, and the one command word of 136 bits. All values are unsigned bit vectors and bit 0 is the least
significant bit. The arithmetic on them (rotation, masks, byte order) stands in Machine/Operands.lean.
-/

namespace Sys2Proof

/-- `WORD_BITS = 64` (R8): a mixing register, the tail, a key half, a message word, the raw digest. -/
abbrev Word := BitVec 64

/-- One message byte (R52). -/
abbrev Byte := BitVec 8

/-- `CMD_BITS = 136` (R8, R70): one command word, `cmd_word[135:0]`. -/
abbrev CmdWord := BitVec 136

end Sys2Proof
end

