-- ==== Sys2Proof/Syntax.lean ====
section
/-!
DEFINITION. The command set of siphash_core as syntax: the four results of decoding a command word
(spec/30_encoding.md R71, R72). The ten rows of spec/opcode_table.json are match and mask patterns of these
four mnemonics: both `ABSORB` rows are values of `absorb`, the six `ILLEGAL` rows are values of `illegal`.
-/

namespace Sys2Proof

/-- A decoded command (R71). -/
inductive Instr where
  /-- `INIT k0, k1` (R73, R90): a new engine from a 128-bit key. -/
  | init (k0 k1 : Word)
  /-- `ABSORB len, d0` (R74, R124): ingest the low `len` bytes of `d0`, `len` from 0 to 8. -/
  | absorb (len : BitVec 4) (d0 : Word)
  /-- `FINAL` (R75, R140): finish the digest. -/
  | final
  /-- `ILLEGAL` (R77): a reserved encoding, kept with the two fields that make it one. The command reads neither
  (notes/assumptions/4.md). -/
  | illegal (op len : BitVec 4)
  deriving DecidableEq, Repr

end Sys2Proof
end

