-- ==== Sys2Proof/WellFormed.lean ====
section
/-!
DEFINITION. Which terms of `Instr` stand for an encoding: those the decoder of spec/30_encoding.md R71 can give.
-/

namespace Sys2Proof

/-- The `ILLEGAL` encodings of R77 by their two fields: `op` 0 or 4 to 15, or `op = 2` with `len` 9 to 15. -/
def illegalFields (op len : BitVec 4) : Bool :=
  op == 0 || 4 ≤ op.toNat || (op == 2 && 9 ≤ len.toNat)

/-- A term of `Instr` that some command word decodes to: a beat carries at most `BEAT_BYTES = 8` bytes (R8, R74), and
`illegal` holds the fields of an `ILLEGAL` encoding (R77). Every key is legal (R94). -/
def Instr.wf : Instr → Bool
  | .init _ _ => true
  | .absorb len _ => len.toNat ≤ 8
  | .final => true
  | .illegal op len => illegalFields op len

end Sys2Proof
end

