-- ==== Sys2Proof/Decode.lean ====
section
/-!
DEFINITION. The decoder and the encoder of the one command format, format `C` (spec/30_encoding.md R70 to R78).
Decoding is total: what is no command is the named result `illegal` (R71, R77). It reads no register.
-/

namespace Sys2Proof

/-- `op`, bits 135:132 (R70). -/
def opField (w : CmdWord) : BitVec 4 := w.extractLsb' 132 4

/-- `len`, bits 131:128 (R70). -/
def lenField (w : CmdWord) : BitVec 4 := w.extractLsb' 128 4

/-- `d1`, bits 127:64 (R70). -/
def d1Field (w : CmdWord) : Word := w.extractLsb' 64 64

/-- `d0`, bits 63:0 (R70). -/
def d0Field (w : CmdWord) : Word := w.extractLsb' 0 64

/-- `{op, len, d1, d0}` as one command word (R70). -/
def packFields (op len : BitVec 4) (d1 d0 : Word) : CmdWord := op ++ len ++ d1 ++ d0

/-- The opcode values of R72. -/
def opInit : BitVec 4 := 0x1
/-- See `opInit`. -/
def opAbsorb : BitVec 4 := 0x2
/-- See `opInit`. -/
def opFinal : BitVec 4 := 0x3

/-- `decode(w)` of R71: `op` first, then, for `ABSORB` alone, `len`. -/
def decode (w : CmdWord) : Instr :=
  if opField w = opInit then .init (d0Field w) (d1Field w)
  else if opField w = opAbsorb then
    if (lenField w).toNat ≤ 8 then .absorb (lenField w) (d0Field w)
    else .illegal (opField w) (lenField w)
  else if opField w = opFinal then .final
  else .illegal (opField w) (lenField w)

/-- The opcode of a command (R72), of an `ILLEGAL` encoding the one it was found with. -/
def Instr.opcode : Instr → BitVec 4
  | .init _ _ => opInit
  | .absorb _ _ => opAbsorb
  | .final => opFinal
  | .illegal op _ => op

/-- The command word of a command, every unused field zero (R70, R73 to R76). -/
def encode : Instr → CmdWord
  | .init k0 k1 => packFields opInit 0 k1 k0
  | .absorb len d0 => packFields opAbsorb len 0 d0
  | .final => packFields opFinal 0 0 0
  | .illegal op len => packFields op len 0 0

/-- The command word whose low `nbits` bits are those of `w` and whose other bits are zero, numbered as
spec/opcode_table.json numbers them: one word, bit 0 its least significant. -/
def tableWord (nbits w : Nat) : CmdWord := BitVec.ofNat 136 (w % 2 ^ nbits)

/-- What the decoder reads from a row's word. No command is longer than 136 bits (R70), so a longer row is none. -/
def decodeTableWord (nbits w : Nat) : Option Instr :=
  if nbits ≤ 136 then some (decode (tableWord nbits w)) else none

end Sys2Proof
end

