-- ==== Sys2Proof/Config.lean ====
section
/-!
DEFINITION. What one implementation of siphash_core fixes and the spec leaves OPEN (spec/00_scope.md R8,
spec/92_eei_decisions.md "Open parameters"), as a structure that the output ports (Machine/Flags.lean) and the
clocked port (Machine/Handshake.lean) take as an ARGUMENT, so that every statement holds for every
implementation. The configuration is not state (spec/10_state.md R35). The one free value of the spec, what a port
shows while the core is busy (spec/93_implementation_defined.md U13), is the opaque constant at the end.
-/

namespace Sys2Proof

/-- `NATIVE_WIDTH`, the "native integer width": 64 or 32 and no other (R8, D15; any other width is outside the
model, U3). -/
inductive NativeWidth where
  | w64
  | w32
  deriving DecidableEq, Repr, Inhabited

/-- The number of bits of `digest_native` (R30). -/
def NativeWidth.bits : NativeWidth → Nat
  | .w64 => 64
  | .w32 => 32

/-- The OPEN parameters of R8. No command's meaning reads one of them. -/
structure Config where
  /-- `NATIVE_WIDTH` (R146): selects `digest_native`. -/
  nativeWidth : NativeWidth
  /-- `RST_ACTIVE_LEVEL` (R190): the level of `rst` at which reset is applied. -/
  rstActiveLevel : Bool
  /-- `RST_SYNC` (R190): whether `rst` is sampled on the clock. No rule depends on it. -/
  rstSync : Bool
  /-- `LAT_INIT` (R198): busy cycles of an `INIT`. -/
  latInit : Nat
  /-- `LAT_ABSORB` (R198) of a beat that completes no word. -/
  latAbsorb : Nat
  /-- `LAT_ABSORB` (R198: it "may depend on whether a word completed") of a beat that completes a word. -/
  latAbsorbWord : Nat
  /-- `LAT_FINAL` (R198): busy cycles of a `FINAL`. -/
  latFinal : Nat
  /-- DESIGN CHOICE (notes/assumptions/6.md): R198 names no busy time of an `ILLEGAL` command, so it is one more
  open number. -/
  latIllegal : Nat
  deriving DecidableEq, Repr, Inhabited

/-- What the output ports of R30 and R51 show in one clock cycle, `cmd_ready` apart. -/
structure OutputPorts (w : NativeWidth) where
  phaseO : BitVec 2
  faultO : BitVec 1
  fcauseO : BitVec 3
  digestValid : BitVec 1
  digestO : Word
  digestNative : BitVec w.bits
  deriving DecidableEq, Repr, Inhabited

/-- FREE VALUE (U13; notes/assumptions/5.md): what the output ports show in clock cycle number `n` while
`cmd_ready = 0`. It has no body, so nothing can be proved of it. -/
opaque Config.inTransition (c : Config) (n : Nat) : OutputPorts c.nativeWidth

end Sys2Proof
end

