-- ==== Sys2Proof/Machine/State.lean ====
section
/-!
DEFINITION. The state of siphash_core: the eleven registers of spec/10_state.md R20, and the moves the host has
still to make (spec/70_reset_and_hazards.md R199), which is how one deterministic step reads the command port and
the reset pin. There is no memory, no program counter and no key register (R33, R35; spec/20_memory.md R50).
-/

namespace Sys2Proof.Machine

/-- The lifecycle register `phase` (R26). The fourth value of its two bits, `0b11`, is never written by any rule
and "a model need not represent it". -/
inductive Phase where
  /-- `0b00`: reset has happened and no `INIT` since. -/
  | empty
  /-- `0b01`: an engine exists and is not finalized. -/
  | active
  /-- `0b10`: the engine is finalized; `digest` holds its result. -/
  | done
  deriving DecidableEq, Repr

/-- One move of the host that the core takes part in (R199): reading a port changes nothing and is no move here. -/
inductive HostMove where
  /-- A command word offered on the command port and held until the core accepts it (R198). -/
  | command (w : CmdWord)
  /-- Reset applied at the `rst` port (R190). -/
  | reset
  deriving DecidableEq, Repr

/-- The four mixing registers seen together: what `sipRound` and `compressWord` read and write (R21). -/
structure Mix where
  v0 : Word
  v1 : Word
  v2 : Word
  v3 : Word
  deriving DecidableEq, Repr

/-- The machine: R20's eleven registers and the host's pending moves. -/
structure State where
  /-- `v0`, mixing state word 0 (R21). -/
  v0 : Word
  /-- `v1`, mixing state word 1 (R21). -/
  v1 : Word
  /-- `v2`, mixing state word 2 (R21). -/
  v2 : Word
  /-- `v3`, mixing state word 3 (R21). -/
  v3 : Word
  /-- `tail`, the pending bytes, little-endian (R22). -/
  tail : Word
  /-- `tcnt`, the number of valid bytes in `tail`, 0 to 7 (R24). -/
  tcnt : BitVec 3
  /-- `total`, the bytes ingested since `INIT`, modulo 2^64 (R25). -/
  total : Word
  /-- `phase`, the lifecycle (R26). -/
  phase : Phase
  /-- `fault`, the sticky error flag (R28). -/
  fault : Bool
  /-- `fcause`, the cause code of the first violation since reset (R28, R161). -/
  fcause : BitVec 3
  /-- `digest`, the raw digest (R23). -/
  digest : Word
  /-- The host's moves still to come, the next one first (R199). The model's own field, no register of the core. -/
  host : List HostMove
  deriving DecidableEq, Repr

/-- Every step of this machine ends with a next state: "The step never blocks, never waits for another agent and
never leaves a register without a defined value" (spec/60_exceptions.md R160). What the spec calls a fault is a NEXT
state with `fault = 1` (R165), so no reason to stop exists and this type has no constructor. Safe. -/
inductive Fault where
  deriving DecidableEq, Repr

/-- The reasons for which the model says nothing. -/
inductive Refusal where
  /-- An instruction without a meaning, by its mnemonic: no arm of `exec` answers it in this model. Safe. -/
  | notModelled (mnemonic : String)
  /-- Raised by the clocked port alone (Machine/Handshake.lean `cycle`), when the host withdraws or changes an offer
  that the core has not accepted yet: R199 gives the host no such move (U17). Safe. -/
  | offerChanged
  deriving DecidableEq, Repr

/-- The machine right after reset: the table of R36. The host has made no move yet. -/
def State.reset : State where
  v0 := 0
  v1 := 0
  v2 := 0
  v3 := 0
  tail := 0
  tcnt := 0
  total := 0
  phase := .empty
  fault := false
  fcause := 0
  digest := 0
  host := []

end Sys2Proof.Machine
end

