-- ==== Sys2Proof/Machine/Flags.lean ====
section
/-!
DEFINITION. The status the block keeps and shows. There are no condition codes and no arithmetic flags
(spec/10_state.md R29): the status bits are `phase`, `fault` and `fcause`, and the output ports of R30, pure functions of
the registers. `digest_native` is R146 of spec/43_finalization.md and its signed reading R147.
-/

namespace Sys2Proof.Machine

/-- The causes of spec/60_exceptions.md R161 that have a name. -/
inductive Cause where
  | none
  | illegalCmd
  | notInitialised
  | absorbAfterFinal
  | finalAfterFinal
  /-- Reserved: "no rule raises it" (R161, R171). -/
  | invariant
  deriving DecidableEq, Repr

/-- The code of a cause in `fcause` (R161). -/
def Cause.code : Cause → BitVec 3
  | .none => 0
  | .illegalCmd => 1
  | .notInitialised => 2
  | .absorbAfterFinal => 3
  | .finalAfterFinal => 4
  | .invariant => 5

/-- The encoding of `phase` in two bits (R26). -/
def Phase.code : Phase → BitVec 2
  | .empty => 0b00
  | .active => 0b01
  | .done => 0b10

/-- `phase_o` (R30). -/
def phaseO (s : State) : BitVec 2 := s.phase.code

/-- `fault_o` (R30). -/
def faultO (s : State) : BitVec 1 := BitVec.ofBool s.fault

/-- `fcause_o` (R30). -/
def fcauseO (s : State) : BitVec 3 := s.fcause

/-- `digest_valid` (R30): "1 when `phase = DONE` and `fault = 0`, else 0". -/
def digestValid (s : State) : BitVec 1 := BitVec.ofBool (s.phase == .done && !s.fault)

/-- `digest_o` (R30): the raw digest. -/
def digestO (s : State) : Word := s.digest

/-- The fold of R146: the upper half XOR the lower half. -/
def fold32 (d : Word) : BitVec 32 := d.extractLsb' 32 32 ^^^ d.extractLsb' 0 32

/-- The raw digest sized to a native width (R146). -/
def sizeDigest (w : NativeWidth) (d : Word) : BitVec w.bits :=
  match w with
  | .w64 => d
  | .w32 => fold32 d

/-- `digest_native` (R30, R146). -/
def digestNative (w : NativeWidth) (s : State) : BitVec w.bits := sizeDigest w s.digest

/-- The signed integer a host reads from `digest_native`: its two's complement value, the bits unchanged (R147). -/
def nativeSigned (w : NativeWidth) (s : State) : Int := (digestNative w s).toInt

/-- All output ports of R30 but `cmd_ready`, which is no function of the registers (Machine/Handshake.lean). -/
def outputs (w : NativeWidth) (s : State) : OutputPorts w where
  phaseO := phaseO s
  faultO := faultO s
  fcauseO := fcauseO s
  digestValid := digestValid s
  digestO := digestO s
  digestNative := digestNative w s

end Sys2Proof.Machine
end

