-- ==== Sys2Proof/Machine/Operands.lean ====
section
/-!
DEFINITION. Bytes, words and the operand of a beat: spec/00_scope.md R9, R10, spec/20_memory.md R52, R53,
spec/30_encoding.md R74 and the two words a command assembles, the accumulator of `ABSORB` (spec/42_ingestion.md R124)
and the padded word of `FINAL` (spec/43_finalization.md R141).
-/

namespace Sys2Proof.Machine

/-- `rotl64(x, n)`, the 64-bit left rotation, `0 < n < 64` (R10; spec/41_sipround_compress.md R102). -/
def rotl64 (x : Word) (n : Nat) : Word := (x <<< n) ||| (x >>> (64 - n))

/-- `rotr64(x, n) = rotl64(x, 64-n)` (R104). -/
def rotr64 (x : Word) (n : Nat) : Word := rotl64 x (64 - n)

/-- Byte `i` of a word: bits `8*i+7 : 8*i` (R9). -/
def byteOf (w : Word) (i : Nat) : Byte := w.extractLsb' (8 * i) 8

/-- `lowmask(n)`: the low `8*n` bits set, `0 <= n <= 8` (R10). -/
def lowmask (n : Nat) : Word := BitVec.ofNat 64 (2 ^ (8 * n) - 1)

/-- The bytes of a list placed into a word little-endian, the first at byte position `k`, each next one position
higher (R53, R121). A byte placed at position 8 or above is lost. -/
def placeBytes (k : Nat) : List Byte → Word
  | [] => 0
  | b :: bs => (b.setWidth 64 <<< (8 * k)) ||| placeBytes (k + 1) bs

/-- `le64` of up to eight bytes, padded with zero bytes (R10, R53). -/
def packBytes (bs : List Byte) : Word := placeBytes 0 bs

/-- The message bytes a beat contributes, in message order: bytes `0` to `len-1` of `d0` (R52, R74). -/
def beatBytes (len : BitVec 4) (d0 : Word) : List Byte := (List.range len.toNat).map (byteOf d0)

/-- `m = d0 & lowmask(len)` (R74, R126): the bytes of `d0` at index `len` and above are not used. -/
def beatValue (len : BitVec 4) (d0 : Word) : Word := d0 &&& lowmask len.toNat

/-- `acc = zext_128(tail) | (zext_128(m) << (8 * tcnt))` (R124). -/
def accumulator (tail : Word) (tcnt : BitVec 3) (m : Word) : BitVec 128 :=
  tail.setWidth 128 ||| (m.setWidth 128 <<< (8 * tcnt.toNat))

/-- `tcnt + len >= 8`: the current word completes (R124). -/
def wordCompletes (tcnt : BitVec 3) (len : BitVec 4) : Bool := 8 ≤ tcnt.toNat + len.toNat

/-- The padded final word `b = tail | (zext_64(total[7:0]) << 56)` (R141). -/
def paddedWord (tail total : Word) : Word :=
  tail ||| ((total.extractLsb' 0 8).setWidth 64 <<< 56)

end Sys2Proof.Machine
end

