-- ==== Sys2Proof/Machine/Ops.lean ====
section
/-!
DEFINITION. The shared operations on the registers: fault entry, the checks that stand before every command's effect,
reset, and taking the host's next move. There is no memory to operate on (spec/20_memory.md R50) and no return from a
fault: "The only way out is reset" (spec/60_exceptions.md R168).
-/

namespace Sys2Proof.Machine

/-- What a meaning answers: a next state, in every case (spec/60_exceptions.md R160). -/
abbrev Answer := Host.Outcome State Fault Refusal

/-- The four mixing registers together. -/
def State.mix (s : State) : Mix := ⟨s.v0, s.v1, s.v2, s.v3⟩

/-- Write the four mixing registers (R21: "every command that touches them touches all four by name"). -/
def State.setMix (s : State) (m : Mix) : State :=
  { s with v0 := m.v0, v1 := m.v1, v2 := m.v2, v3 := m.v3 }

/-- Write the tail buffer and its byte count (R22, R24). -/
def State.setTail (s : State) (tail : Word) (tcnt : BitVec 3) : State :=
  { s with tail := tail, tcnt := tcnt }

/-- Write the byte count of the message (R25). -/
def State.setTotal (s : State) (total : Word) : State := { s with total := total }

/-- Write the lifecycle register (R26). -/
def State.setPhase (s : State) (p : Phase) : State := { s with phase := p }

/-- Write the digest register (R23). -/
def State.setDigest (s : State) (d : Word) : State := { s with digest := d }

/-- The host's moves still to come. -/
def State.setHost (s : State) (h : List HostMove) : State := { s with host := h }

/-- `raise Fault(cause)`, the fault entry of R165: two writes, every other register keeps its value. -/
def State.raiseFault (s : State) (c : Cause) : State := { s with fault := true, fcause := c.code }

/-- R167, the first line of every command: with `fault = 1` the command is accepted and ignored. -/
def unlessFaulted (s : State) (effect : State → State) : Answer :=
  .next (if s.fault then s else effect s)

/-- The lifecycle check of R163 step 3, before any register is written (R166): the command needs `phase = ACTIVE`;
in `EMPTY` it raises `NOT_INITIALISED` (R172), in `DONE` the cause of its own (R164). -/
def whenActive (s : State) (afterFinal : Cause) (effect : State → State) : State :=
  match s.phase with
  | .empty => s.raiseFault .notInitialised
  | .done => s.raiseFault afterFinal
  | .active => effect s

/-- Reset (spec/70_reset_and_hazards.md R190): every register takes its reset value. The host's further moves are the
host's and stay. -/
def State.applyReset (s : State) : State := State.reset.setHost s.host

/-- The host's next move, and the state in which the core sees it. -/
def State.takeMove (s : State) : Option (HostMove × State) :=
  match s.host with
  | [] => none
  | mv :: rest => some (mv, s.setHost rest)

/-- The host offers `w` before any other move it has still to make (R198, R199). -/
def State.offerFirst (s : State) (w : CmdWord) : State := s.setHost (.command w :: s.host)

end Sys2Proof.Machine
end

