-- ==== Sys2Proof/Machine/Mixing.lean ====
section
/-!
DEFINITION. The mixing round and `compressWord` (spec/41_sipround_compress.md R100 to R107): internal operations, no
commands. All additions wrap modulo 2^64 (R101).
-/

namespace Sys2Proof.Machine

/-- `C_ROUNDS = 2` (spec/00_scope.md R8, R106): rounds per compressed word. -/
def cRounds : Nat := 2

/-- `D_ROUNDS = 4` (R8, R106): rounds at finalization. -/
def dRounds : Nat := 4

/-- `sipRound()` of R103: its fourteen steps in order, each using the values left by the steps before it. -/
def sipRound (m : Mix) : Mix :=
  let v0 := m.v0 + m.v1
  let v1 := rotl64 m.v1 13
  let v1 := v1 ^^^ v0
  let v0 := rotl64 v0 32
  let v2 := m.v2 + m.v3
  let v3 := rotl64 m.v3 16
  let v3 := v3 ^^^ v2
  let v0 := v0 + v3
  let v3 := rotl64 v3 21
  let v3 := v3 ^^^ v0
  let v2 := v2 + v1
  let v1 := rotl64 v1 17
  let v1 := v1 ^^^ v2
  let v2 := rotl64 v2 32
  ⟨v0, v1, v2, v3⟩

/-- The inverse round of R104: the steps backwards, with subtraction modulo 2^64 and right rotation. The hardware
never runs it. -/
def sipRoundInverse (m : Mix) : Mix :=
  let v2 := rotr64 m.v2 32
  let v1 := m.v1 ^^^ v2
  let v1 := rotr64 v1 17
  let v2 := v2 - v1
  let v3 := m.v3 ^^^ m.v0
  let v3 := rotr64 v3 21
  let v0 := m.v0 - v3
  let v3 := v3 ^^^ v2
  let v3 := rotr64 v3 16
  let v2 := v2 - v3
  let v0 := rotr64 v0 32
  let v1 := v1 ^^^ v0
  let v1 := rotr64 v1 13
  let v0 := v0 - v1
  ⟨v0, v1, v2, v3⟩

/-- The two-stage form of a round that R104 gives as equivalent. -/
def sipRoundTwoStage (m : Mix) : Mix :=
  let a0 := m.v0 + m.v1
  let a2 := m.v2 + m.v3
  let b1 := rotl64 m.v1 13 ^^^ a0
  let b3 := rotl64 m.v3 16 ^^^ a2
  let c0 := rotl64 a0 32
  let d0 := c0 + b3
  let d2 := a2 + b1
  ⟨d0, rotl64 b1 17 ^^^ d2, rotl64 d2 32, rotl64 b3 21 ^^^ d0⟩

/-- `n` rounds, one after another. -/
def sipRounds : Nat → Mix → Mix
  | 0, m => m
  | n + 1, m => sipRounds n (sipRound m)

/-- XOR a word into `v3`, the first line of `compressWord` (R105). -/
def Mix.xorV3 (m : Mix) (w : Word) : Mix := { m with v3 := m.v3 ^^^ w }

/-- XOR a word into `v0`, the last line of `compressWord` (R105). -/
def Mix.xorV0 (m : Mix) (w : Word) : Mix := { m with v0 := m.v0 ^^^ w }

/-- XOR a word into `v2`, the finalization constant of R143. -/
def Mix.xorV2 (m : Mix) (w : Word) : Mix := { m with v2 := m.v2 ^^^ w }

/-- `compressWord(m)` (R105), on the mixing registers alone. -/
def compressWord (w : Word) (m : Mix) : Mix := (sipRounds cRounds (m.xorV3 w)).xorV0 w

/-- The finalization of R140 after the padded word is compressed: `v2 ^= 0xff`, then four rounds (R143). -/
def finalRounds (m : Mix) : Mix := sipRounds dRounds (m.xorV2 0xff)

/-- `v0 ^ v1 ^ v2 ^ v3` (R140). -/
def Mix.fold (m : Mix) : Word := m.v0 ^^^ m.v1 ^^^ m.v2 ^^^ m.v3

end Sys2Proof.Machine
end

