-- ==== Sys2Proof/Machine/Construction.lean ====
section
/-!
DEFINITION. The command `INIT` (spec/40_construction.md R90 to R95).
-/

namespace Sys2Proof.Machine

/-- `IV0`, "somepseu" (R91; the hexadecimal is normative). -/
def iv0 : Word := 0x736f6d6570736575
/-- `IV1`, "dorandom" (R91). -/
def iv1 : Word := 0x646f72616e646f6d
/-- `IV2`, "lygenera" (R91). -/
def iv2 : Word := 0x6c7967656e657261
/-- `IV3`, "tedbytes" (R91). -/
def iv3 : Word := 0x7465646279746573

/-- The mixing registers of a new engine (R90). -/
def keyedMix (k0 k1 : Word) : Mix := ⟨iv0 ^^^ k0, iv1 ^^^ k1, iv2 ^^^ k0, iv3 ^^^ k1⟩

/-- A new engine over whatever was there (R90, R92, R93): everything but `fault` and `fcause` is written. -/
def State.construct (s : State) (k0 k1 : Word) : State :=
  (((((s.setMix (keyedMix k0 k1)).setTail 0 0).setTotal 0).setDigest 0).setPhase .active)

/-- `INIT k0, k1` (R90): legal in every `phase` (R93), never a fault. -/
def execInit (k0 k1 : Word) (s : State) : Answer :=
  unlessFaulted s fun s => s.construct k0 k1

end Sys2Proof.Machine
end

