-- ==== Sys2Proof/Machine/Finalization.lean ====
section
/-!
DEFINITION. The command `FINAL` (spec/43_finalization.md R140 to R145).
-/

namespace Sys2Proof.Machine

/-- The mixing registers after `FINAL` (R140): the padded word compressed, then the finalization rounds. -/
def finalMix (tail total : Word) (m : Mix) : Mix := finalRounds (compressWord (paddedWord tail total) m)

/-- The effect of `FINAL` in `phase = ACTIVE` (R140). `tail`, `tcnt` and `total` keep their values: the padded word is
a temporary (R145). -/
def State.finalize (s : State) : State :=
  let m := finalMix s.tail s.total s.mix
  (((s.setPhase .done).setMix m).setDigest m.fold)

/-- `FINAL` (R140). -/
def execFinal (s : State) : Answer :=
  unlessFaulted s fun s => whenActive s .finalAfterFinal State.finalize

end Sys2Proof.Machine
end

