-- ==== Sys2Proof/Machine/Illegal.lean ====
section
/-!
DEFINITION. The `ILLEGAL` encodings (spec/30_encoding.md R77; spec/60_exceptions.md R162).
-/

namespace Sys2Proof.Machine

/-- An `ILLEGAL` command raises `Fault(ILLEGAL_CMD)` in every `phase` (R162). Its fields are not used: a fault records
no faulting word (R161). -/
def execIllegal (_op _len : BitVec 4) (s : State) : Answer :=
  unlessFaulted s fun s => s.raiseFault .illegalCmd

end Sys2Proof.Machine
end

