-- ==== Sys2Proof/Machine/Ingestion.lean ====
section
/-!
DEFINITION. The command `ABSORB` (spec/42_ingestion.md R124 to R126, R128).
-/

namespace Sys2Proof.Machine

/-- The effect of a beat of `len` bytes in `phase = ACTIVE` (R124): when the current word completes it is compressed
and the rest of the accumulator is the new tail, else the tail grows; `total` grows by `len` modulo 2^64 (R128). -/
def State.absorbBeat (s : State) (len : BitVec 4) (d0 : Word) : State :=
  let acc := accumulator s.tail s.tcnt (beatValue len d0)
  let count := s.tcnt.toNat + len.toNat
  let total := s.total + len.setWidth 64
  if wordCompletes s.tcnt len then
    (((s.setMix (compressWord (acc.extractLsb' 0 64) s.mix)).setTail
      (acc.extractLsb' 64 64) (BitVec.ofNat 3 (count - 8))).setTotal total)
  else
    ((s.setTail (acc.extractLsb' 0 64) (BitVec.ofNat 3 count)).setTotal total)

/-- `ABSORB len, d0` (R124). A `len` above 8 is no `ABSORB` but an `ILLEGAL` encoding, whatever the `phase` (R77, R163):
no word decodes to such a term, and it raises the cause of that encoding (notes/assumptions/3.md). -/
def execAbsorb (len : BitVec 4) (d0 : Word) (s : State) : Answer :=
  unlessFaulted s fun s =>
    if len.toNat ≤ 8 then whenActive s .absorbAfterFinal fun s => s.absorbBeat len d0
    else s.raiseFault .illegalCmd

end Sys2Proof.Machine
end

