-- ==== Sys2Proof/Machine/Dispatch.lean ====
section
/-!
DEFINITION. One arm per constructor of Instr: `case decode(w) of` in spec/60_exceptions.md R160.
-/

namespace Sys2Proof.Machine

def exec (i : Instr) (s : State) : Host.Outcome State Fault Refusal :=
  match i with
  | .init k0 k1 => Sys2Proof.Machine.execInit k0 k1 s
  | .absorb len d0 => Sys2Proof.Machine.execAbsorb len d0 s
  | .final => Sys2Proof.Machine.execFinal s
  | .illegal op len => Sys2Proof.Machine.execIllegal op len s

end Sys2Proof.Machine
end

