-- ==== Sys2Proof/Machine/Step.lean ====
section
/-!
DEFINITION. One step of the machine: the core takes the host's next move (spec/60_exceptions.md R160;
spec/70_reset_and_hazards.md R190, R199).
-/

namespace Sys2Proof.Machine

/-- One step. A command word is accepted, decoded and run to its end (R160, R11); reset gives the reset state (R190);
with no move of the host the core is idle with its registers held (R178, R192). -/
def step (s : State) : Host.Outcome State Fault Refusal :=
  match s.takeMove with
  | none => .next s
  | some (.reset, t) => .next t.applyReset
  | some (.command w, t) => exec (decode w) t

/-- `s` with the given command word as the host's next offer, so that the very next step accepts and runs it. Nothing
else changes: the moves that were pending come after it. -/
def State.withFetchWord (s : State) (nbits w : Nat) : State := s.offerFirst (tableWord nbits w)

end Sys2Proof.Machine
end

