-- ==== Sys2Proof/Machine/Assembler.lean ====
section
/-!
DEFINITION. The textual form of commands and the pseudo-instructions (spec/30_encoding.md R76, R79, R80): canonical
command words, the syntax of a listing, and each pseudo's expansion. Nothing here is run by the core.
-/

namespace Sys2Proof.Machine

/-- The canonical form of a command (R76): all unused bytes of `d0` zero (its unused fields `encode` already sets to
zero). -/
def canonical : Instr → Instr
  | .init k0 k1 => .init k0 k1
  | .absorb len d0 => .absorb len (beatValue len d0)
  | .final => .final
  | .illegal op len => .illegal op len

/-- The command of a beat of at most eight bytes, `ABSORB [b0 ... b(n-1)]` (R79). -/
def beatOf (bs : List Byte) : Instr := .absorb (BitVec.ofNat 4 bs.length) (packBytes bs)

/-- A line of a listing (R79). -/
inductive AsmLine where
  /-- `INIT k0, k1`. -/
  | init (k0 k1 : Word)
  /-- `ABSORB n, d0`. -/
  | absorb (n : Nat) (d0 : Word)
  /-- `ABSORB [b0 b1 ... b(n-1)]`. -/
  | absorbBytes (bs : List Byte)
  /-- `FINAL`. -/
  | final
  deriving DecidableEq, Repr

/-- The command a line stands for; none where the syntax has no such line (`0 <= n <= 8`, R79). -/
def AsmLine.instr : AsmLine → Option Instr
  | .init k0 k1 => some (.init k0 k1)
  | .absorb n d0 => if n ≤ 8 then some (.absorb (BitVec.ofNat 4 n) d0) else none
  | .absorbBytes bs => if bs.length ≤ 8 then some (beatOf bs) else none
  | .final => some .final

/-- The canonical word of a line (R79). -/
def assemble (l : AsmLine) : Option CmdWord := l.instr.map fun i => encode (canonical i)

/-- One hexadecimal digit. -/
def hexDigit (n : Nat) : Char := "0123456789abcdef".toList.getD n '0'

/-- The low `k` hexadecimal digits of a number, most significant first. -/
def hexDigits : Nat → Nat → List Char
  | 0, _ => []
  | k + 1, n => hexDigits k (n / 16) ++ [hexDigit (n % 16)]

/-- A 64-bit literal in full, `0x` and sixteen digits (R79). -/
def literal64 (w : Word) : String := "0x" ++ String.ofList (hexDigits 16 w.toNat)

/-- A byte in two hexadecimal digits (R79). -/
def byteText (b : Byte) : String := String.ofList (hexDigits 2 b.toNat)

/-- A line as text (R79). -/
def AsmLine.text : AsmLine → String
  | .init k0 k1 => "INIT " ++ literal64 k0 ++ ", " ++ literal64 k1
  | .absorb n d0 => "ABSORB " ++ String.singleton (hexDigit n) ++ ", " ++ literal64 d0
  | .absorbBytes bs => "ABSORB [" ++ String.intercalate " " (bs.map byteText) ++ "]"
  | .final => "FINAL"

/-- The pseudo-instructions of R80. -/
inductive Pseudo where
  /-- `ADD [b0 b1 ... b(N-1)]`, any `N >= 0`. -/
  | add (bs : List Byte)
  /-- `ADDB b`. -/
  | addb (b : Byte)
  /-- `HASH k0, k1, [b0 ... b(N-1)]`. -/
  | hash (k0 k1 : Word) (bs : List Byte)
  deriving DecidableEq, Repr

/-- The beats of a byte sequence: each full group of eight, then the last `N mod 8` bytes if there are any (R80). -/
def groups : List Byte → List (List Byte)
  | b0 :: b1 :: b2 :: b3 :: b4 :: b5 :: b6 :: b7 :: rest => [b0, b1, b2, b3, b4, b5, b6, b7] :: groups rest
  | [] => []
  | left => [left]

/-- `ADD`'s expansion (R80): the empty sequence is one empty beat, "so that the finalized check of `add` is still
made". -/
def expandAdd (bs : List Byte) : List Instr :=
  if bs.length = 0 then [.absorb 0 0] else (groups bs).map beatOf

/-- A pseudo-instruction's expansion (R80). -/
def Pseudo.expand : Pseudo → List Instr
  | .add bs => expandAdd bs
  | .addb b => [beatOf [b]]
  | .hash k0 k1 bs => .init k0 k1 :: expandAdd bs ++ [.final]

end Sys2Proof.Machine
end

