-- ==== Sys2Proof/Machine/Run.lean ====
section
/-!
DEFINITION. Runs (spec/70_reset_and_hazards.md R194; spec/20_memory.md R59): what one command, one move of the host and a
sequence of them make of the state, as plain functions of the state. Also the number of rounds a command runs (R204).
-/

namespace Sys2Proof.Machine

/-- The state in an answer; the old state where the answer holds none, which no command's answer does (R160). -/
def answerState (old : State) : Answer → State
  | .next t => t
  | .fault _ => old
  | .refused _ => old

/-- One command applied to a state. -/
def runInstr (s : State) (i : Instr) : State := answerState s (exec i s)

/-- Commands applied one after another, each to its end before the next begins (R59). -/
def runInstrs (s : State) (is : List Instr) : State := is.foldl runInstr s

/-- `step(w)` of spec/60_exceptions.md R160: one command word applied to a state. -/
def runWord (s : State) (w : CmdWord) : State := runInstr s (decode w)

/-- The command words of a run, one after another (R194). -/
def runWords (s : State) (ws : List CmdWord) : State := ws.foldl runWord s

/-- One move of the host applied to the registers: a command word, or reset (R190). -/
def runMove (s : State) : HostMove → State
  | .command w => runWord s w
  | .reset => s.applyReset

/-- Moves of the host, one after another. -/
def runMoves (s : State) (ms : List HostMove) : State := ms.foldl runMove s

/-- The mixing registers together with the number of rounds run on them so far. -/
structure CountedMix where
  mix : Mix
  rounds : Nat
  deriving DecidableEq, Repr

/-- `n` rounds of R103, each one counted. -/
def CountedMix.run : Nat → CountedMix → CountedMix
  | 0, m => m
  | n + 1, m => CountedMix.run n ⟨sipRound m.mix, m.rounds + 1⟩

/-- `compressWord` (R105) with its rounds counted. -/
def CountedMix.compress (w : Word) (m : CountedMix) : CountedMix :=
  let r := CountedMix.run cRounds ⟨m.mix.xorV3 w, m.rounds⟩
  ⟨r.mix.xorV0 w, r.rounds⟩

/-- The finalization rounds (R143), counted. -/
def CountedMix.finish (m : CountedMix) : CountedMix := CountedMix.run dRounds ⟨m.mix.xorV2 0xff, m.rounds⟩

/-- A command's path through the mixing registers, with its rounds counted: what `exec` leaves in them (R90, R124, R140; the
old values where the command faults or is ignored), and how many rounds that took. -/
def countedExec (i : Instr) (s : State) : CountedMix :=
  if s.fault then ⟨s.mix, 0⟩
  else match i with
    | .init k0 k1 => ⟨keyedMix k0 k1, 0⟩
    | .absorb len d0 =>
      if len.toNat ≤ 8 && s.phase == .active && wordCompletes s.tcnt len then
        CountedMix.compress ((accumulator s.tail s.tcnt (beatValue len d0)).extractLsb' 0 64) ⟨s.mix, 0⟩
      else ⟨s.mix, 0⟩
    | .final =>
      if s.phase == .active then (CountedMix.compress (paddedWord s.tail s.total) ⟨s.mix, 0⟩).finish else ⟨s.mix, 0⟩
    | .illegal _ _ => ⟨s.mix, 0⟩

/-- The `sipRound`s a command runs in a state (R204), counted on its path. -/
def roundCount (i : Instr) (s : State) : Nat := (countedExec i s).rounds

/-- The `sipRound`s a sequence of commands runs. -/
def roundCounts : State → List Instr → Nat
  | _, [] => 0
  | s, i :: is => roundCount i s + roundCounts (runInstr s i) is

end Sys2Proof.Machine
end

