-- ==== Sys2Proof/Machine/Handshake.lean ====
section
/-!
DEFINITION. The ports seen clock cycle by clock cycle (spec/20_memory.md R51; spec/70_reset_and_hazards.md R190, R191, R198,
R199, R204): acceptance by `cmd_valid` and `cmd_ready`, a command in progress that keeps the core busy, reset that
abandons it. The machine of Machine/Step.lean has no time (R204); this one has, takes the OPEN latencies as an argument,
and runs the same commands. It adds no architectural register (R20, R34).
-/

namespace Sys2Proof.Machine

/-- The input ports in one clock cycle (R51). -/
structure Pins where
  /-- `rst`, its electrical level. -/
  rst : Bool
  /-- `cmd_valid`. -/
  cmdValid : Bool
  /-- `cmd_word`. -/
  cmdWord : CmdWord
  deriving DecidableEq, Repr

/-- A command accepted and not yet completed (R198). -/
structure InFlight where
  /-- The word, sampled in the cycle of acceptance "and in no other". -/
  word : CmdWord
  /-- The busy cycles that follow the next one. -/
  left : Nat
  deriving DecidableEq, Repr

/-- The block between two clock edges. -/
structure PortState where
  /-- The registers of the core. -/
  core : State
  /-- The command in progress; `cmd_ready = 0` while there is one. -/
  busy : Option InFlight
  /-- An offer of the host that the core has not accepted yet: the host must keep it (R199). -/
  offer : Option CmdWord
  /-- The number of clock cycles so far, which tells the free values of the ports in transition apart. -/
  clock : Nat
  deriving DecidableEq, Repr

/-- The block after reset: `cmd_ready = 1` (R192). -/
def PortState.reset : PortState where
  core := State.reset
  busy := none
  offer := none
  clock := 0

/-- `cmd_ready` (R30, R198): 1 when no command is in progress. DESIGN CHOICE (notes/assumptions/20.md): it does not look at
`rst`, so a ready core shows 1 in a cycle in which reset is applied, although no word is accepted then (R191); no rule gives
the port's value in such a cycle. -/
def PortState.cmdReady (p : PortState) : Bool := p.busy.isNone

/-- Whether reset is applied in a cycle: `rst` stands at its active level (R190). -/
def resetApplied (c : Config) (pins : Pins) : Bool := pins.rst == c.rstActiveLevel

/-- The offer on the command port in a cycle. -/
def Pins.offered (pins : Pins) : Option CmdWord := if pins.cmdValid then some pins.cmdWord else none

/-- Whether a word is accepted in a cycle: `cmd_valid = 1`, `cmd_ready = 1` (R198), and no reset (R191). -/
def accepts (c : Config) (p : PortState) (pins : Pins) : Bool :=
  !resetApplied c pins && p.cmdReady && pins.cmdValid

/-- The busy time of a command in cycles (R198). With `fault = 1` it is 0: "`cmd_ready` stays 1 while `fault = 1`". -/
def busyTime (c : Config) (w : CmdWord) (s : State) : Nat :=
  if s.fault then 0
  else match decode w with
    | .init _ _ => c.latInit
    | .absorb len _ => if s.phase = .active && wordCompletes s.tcnt len then c.latAbsorbWord else c.latAbsorb
    | .final => c.latFinal
    | .illegal _ _ => c.latIllegal

/-- Whether the host breaks its duty in a cycle: it withdraws or changes an offer not accepted yet (R199, U17). -/
def breaksOffer (p : PortState) (pins : Pins) : Bool := p.offer.isSome && p.offer != pins.offered

/-- The host's duty of R199 over a sequence of cycles: an offer pending before them is still offered in the first, and an
offer made in one cycle is still offered in the next. -/
def offersKept : Option CmdWord → List Pins → Bool
  | _, [] => true
  | offer, pins :: rest => (offer.isNone || offer == pins.offered) && offersKept pins.offered rest

/-- The block after a cycle in which reset is applied (R190, R191): the command in progress is abandoned and none of its
writes is made, the command offered is not accepted. -/
def resetCycle (p : PortState) (pins : Pins) : PortState where
  core := p.core.applyReset
  busy := none
  offer := pins.offered
  clock := p.clock + 1

/-- The block after a busy cycle: the last one makes the command's register writes visible (R198). -/
def busyCycle (f : InFlight) (p : PortState) (pins : Pins) : PortState :=
  let q := { p with offer := pins.offered, clock := p.clock + 1 }
  match f.left with
  | 0 => { q with core := runWord p.core f.word, busy := none }
  | n + 1 => { q with busy := some ⟨f.word, n⟩ }

/-- The block after a cycle in which the core was ready (R198): a word offered is accepted. -/
def readyCycle (c : Config) (p : PortState) (pins : Pins) : PortState :=
  let q := { p with offer := none, clock := p.clock + 1 }
  if pins.cmdValid then
    match busyTime c pins.cmdWord p.core with
    | 0 => { q with core := runWord p.core pins.cmdWord }
    | n + 1 => { q with busy := some ⟨pins.cmdWord, n⟩ }
  else q

/-- One clock cycle. Reset wins over everything (R191); a host that breaks its offer is outside the model (U17). -/
def cycle (c : Config) (pins : Pins) (p : PortState) : Host.Outcome PortState Fault Refusal :=
  if resetApplied c pins then .next (resetCycle p pins)
  else if breaksOffer p pins then .refused .offerChanged
  else match p.busy with
    | some f => .next (busyCycle f p pins)
    | none => .next (readyCycle c p pins)

/-- Clock cycles one after another. -/
def cycles (c : Config) : List Pins → PortState → Host.Outcome PortState Fault Refusal
  | [], p => .next p
  | pins :: rest, p =>
    match cycle c pins p with
    | .next q => cycles c rest q
    | .fault r => .fault r
    | .refused r => .refused r

/-- The moves of the host that take effect in a cycle: reset, or the word accepted. -/
def cycleMoves (c : Config) (p : PortState) (pins : Pins) : List HostMove :=
  if resetApplied c pins then [.reset] else if accepts c p pins then [.command pins.cmdWord] else []

/-- The moves that take effect in a sequence of cycles. -/
def cyclesMoves (c : Config) : List Pins → PortState → List HostMove
  | [], _ => []
  | pins :: rest, p =>
    cycleMoves c p pins ++
      match cycle c pins p with
      | .next q => cyclesMoves c rest q
      | .fault _ => []
      | .refused _ => []

/-- The registers once the command in progress, if any, has completed. -/
def PortState.settled (p : PortState) : State :=
  match p.busy with
  | none => p.core
  | some f => runWord p.core f.word

/-- What the output ports show (R198, U13): a state between commands while `cmd_ready = 1`, and a free value while the
core is busy. -/
def sampledPorts (c : Config) (p : PortState) : OutputPorts c.nativeWidth :=
  if p.cmdReady then outputs c.nativeWidth p.core else c.inTransition p.clock

end Sys2Proof.Machine
end

