-- ==== Sys2Proof/Machine/Reference.lean ====
section
/-!
DEFINITION. The operations the spec defines beside the commands and that the commands are held to: `add(B)` for a byte
sequence of any length (spec/42_ingestion.md R120 to R123) and the function computed (spec/43_finalization.md R148). No
opcode selects them.
-/

namespace Sys2Proof.Machine

/-- Step 2 of R120: while at least eight bytes remain, compress the next eight; the bytes left over are returned. -/
def compressAll : List Byte → Mix → Mix × List Byte
  | b0 :: b1 :: b2 :: b3 :: b4 :: b5 :: b6 :: b7 :: rest, m =>
    compressAll rest (compressWord (packBytes [b0, b1, b2, b3, b4, b5, b6, b7]) m)
  | left, m => (m, left)

/-- Step 1 of R120, for `tcnt > 0`: the first `r = min(L, 8 - tcnt)` bytes top up the tail; if it reaches eight bytes
it is compressed and emptied. -/
def topUpTail (s : State) (bs : List Byte) : State × List Byte :=
  let r := min bs.length (8 - s.tcnt.toNat)
  let tail := s.tail ||| placeBytes s.tcnt.toNat (bs.take r)
  if s.tcnt.toNat + r = 8 then ((s.setMix (compressWord tail s.mix)).setTail 0 0, bs.drop r)
  else (s.setTail tail (BitVec.ofNat 3 (s.tcnt.toNat + r)), bs.drop r)

/-- Steps 2 and 3 of R120: whole words, then the leftover bytes, if any, start the new tail (R122). -/
def addWords (s : State) (bs : List Byte) : State :=
  let (m, left) := compressAll bs s.mix
  let s := s.setMix m
  if left.length = 0 then s else s.setTail (packBytes left) (BitVec.ofNat 3 left.length)

/-- The four steps of R120 in `phase = ACTIVE`. -/
def State.addBytes (s : State) (bs : List Byte) : State :=
  let (t, left) := if 0 < s.tcnt.toNat then topUpTail s bs else (s, bs)
  (addWords t left).setTotal (s.total + BitVec.ofNat 64 bs.length)

/-- `add(B)` of R120, its checks included. -/
def State.add (s : State) (bs : List Byte) : State :=
  if s.fault then s else whenActive s .absorbAfterFinal fun s => s.addBytes bs

/-- `add1(b)` of R123 (a): one byte, `phase = ACTIVE`, `fault = 0`. -/
def State.addByte (s : State) (b : Byte) : State :=
  let t := s.tail ||| (b.setWidth 64 <<< (8 * s.tcnt.toNat))
  let s' := if s.tcnt = 7 then (s.setMix (compressWord t s.mix)).setTail 0 0 else s.setTail t (s.tcnt + 1)
  s'.setTotal (s.total + 1)

/-- The bytes of a message beyond its whole words: the last `N mod 8` (R148). -/
def tailBytes (bs : List Byte) : List Byte := bs.drop (8 * (bs.length / 8))

/-- `M_0 ... M_(W-1)` of R123 (b): the whole words of a message, little-endian (R53). -/
def messageWords (bs : List Byte) : List Word :=
  (List.range (bs.length / 8)).map fun w => packBytes ((bs.drop (8 * w)).take 8)

/-- The padded final word as a function of the message alone (R141, R148). -/
def messagePadding (bs : List Byte) : Word :=
  packBytes (tailBytes bs) + BitVec.ofNat 64 (bs.length % 256 * 2 ^ 56)

/-- `SipHash24(k0, k1, B)` of R148: the closed form, written apart from the commands' own path. -/
def sipHash24 (k0 k1 : Word) (bs : List Byte) : Word :=
  let m := (messageWords bs).foldl (fun m w => compressWord w m) (keyedMix k0 k1)
  let m := compressWord (messagePadding bs) m
  (sipRounds 4 { m with v2 := m.v2 ^^^ 0xff }).fold

end Sys2Proof.Machine
end

