-- ==== Sys2Proof/Safety.lean ====
section
/-!
DEFINITION. What counts as a safe state and a good run: the invariants of spec/10_state.md R32, the causes a command
reports (spec/60_exceptions.md R161, R163), the lifecycle table (R27) and a good run (spec/70_reset_and_hazards.md R194).
-/

namespace Sys2Proof.Machine

/-- INV2 of R32: `tcnt = total mod 8`. -/
abbrev CountsAgree (s : State) : Prop := s.tcnt.toNat = s.total.toNat % 8

/-- INV3 of R32: `tail >> (8 * tcnt) = 0`. -/
abbrev TailClean (s : State) : Prop := s.tail >>> (8 * s.tcnt.toNat) = 0

/-- INV4 of R32: `fault = 0` implies `fcause = 0`; `fault = 1` implies `fcause` is one of 1, 2, 3, 4. -/
abbrev CauseLegal (s : State) : Prop :=
  (s.fault = false → s.fcause = 0) ∧
  (s.fault = true → s.fcause = 1 ∨ s.fcause = 2 ∨ s.fcause = 3 ∨ s.fcause = 4)

/-- INV6 of R32: in `EMPTY` every data register is 0. -/
abbrev EmptyIsZero (s : State) : Prop :=
  s.phase = .empty →
    s.v0 = 0 ∧ s.v1 = 0 ∧ s.v2 = 0 ∧ s.v3 = 0 ∧ s.tail = 0 ∧ s.tcnt = 0 ∧ s.total = 0 ∧ s.digest = 0

/-- INV7 of R32: `phase = ACTIVE` implies `digest = 0`. -/
abbrev ActiveHasNoDigest (s : State) : Prop := s.phase = .active → s.digest = 0

/-- INV1 to INV7 of R32. INV1 and INV5 are stated of the register values a host or a proof can see: `tcnt` has three bits
and `phase` shows no `0b11`. -/
abbrev Invariants (s : State) : Prop :=
  s.tcnt.toNat ≤ 7 ∧ CountsAgree s ∧ TailClean s ∧ CauseLegal s ∧ s.phase.code ≠ 0b11 ∧
  EmptyIsZero s ∧ ActiveHasNoDigest s

/-- The cause a well-formed command reports in a phase, with `fault = 0` before it (R161, R163): decode first, then the
lifecycle. -/
def causeOf : Instr → Phase → Option Cause
  | .illegal _ _, _ => some .illegalCmd
  | .init _ _, _ => none
  | .absorb _ _, .empty => some .notInitialised
  | .absorb _ _, .active => none
  | .absorb _ _, .done => some .absorbAfterFinal
  | .final, .empty => some .notInitialised
  | .final, .active => none
  | .final, .done => some .finalAfterFinal

/-- The next phase of a well-formed command that raises nothing (R27). -/
def nextPhase : Instr → Phase → Phase
  | .init _ _, _ => .active
  | .final, .active => .done
  | _, p => p

/-- A run is good when `fault = 0` at its end (R194): one reset, then a finite sequence of accepted command words. -/
abbrev GoodRun (ws : List CmdWord) : Prop := (runWords State.reset ws).fault = false

/-- The two states agree on all that the output ports show (R30, R50). -/
abbrev SameAtPorts (s t : State) : Prop :=
  s.phase = t.phase ∧ s.fault = t.fault ∧ s.fcause = t.fcause ∧ s.digest = t.digest

/-- The registers of the engine and the result: what a fault leaves alone (R165). -/
abbrev SameData (s t : State) : Prop :=
  s.v0 = t.v0 ∧ s.v1 = t.v1 ∧ s.v2 = t.v2 ∧ s.v3 = t.v3 ∧ s.tail = t.tail ∧ s.tcnt = t.tcnt ∧
  s.total = t.total ∧ s.phase = t.phase ∧ s.digest = t.digest

/-- The message of an engine (spec/20_memory.md R52): the valid bytes of its beats, in order of acceptance. -/
def beatsMessage (beats : List (BitVec 4 × Word)) : List Byte :=
  (beats.map fun b => beatBytes b.1 b.2).flatten

/-- Beats as commands. -/
def beatsInstrs (beats : List (BitVec 4 × Word)) : List Instr := beats.map fun b => .absorb b.1 b.2

/-- Every beat carries a legal number of bytes (R74). -/
abbrev LegalBeats (beats : List (BitVec 4 × Word)) : Prop := ∀ b ∈ beats, b.1.toNat ≤ 8

end Sys2Proof.Machine
end

