-- ==== Sys2Proof/Certificates/Slice0/Obligations.lean ====
section
/-!
DEFINITION. The statements for the provers, from the numbered rules of spec/. A conclusion `exec i s = .next t` with `t`
written as a record update of `s` is a result, a frame and a completion at once: every field it does not name is
unchanged. There is no memory and no program counter to frame (spec/20_memory.md R50; spec/10_state.md R33).
-/

open Sys2Proof Sys2Proof.Machine

/-! ### Encoding (spec/30_encoding.md) -/

/-- A few words written out from the format (R70) and the opcode map (R72): sanity. -/
def Obligations.SpecWordsDecode : Prop :=
  decode 0x100f0e0d0c0b0a09080706050403020100 = .init 0x0706050403020100 0x0f0e0d0c0b0a0908 ∧
  decode 0x230000000000000000ffffffffff332211 = .absorb 3 0xffffffffff332211 ∧
  decode 0x2800000000000012340000000000000000 = .absorb 8 0 ∧
  decode 0x3500000000000000020000000000000001 = .final ∧
  decode 0x2900000000000000000000000000000000 = .illegal 2 9 ∧
  decode 0x0000000000000000000000000000000000 = .illegal 0 0 ∧
  decode 0xffffffffffffffffffffffffffffffffff = .illegal 15 15

/-- R70 and R71: every word is `op * 2^132 + len * 2^128 + d1 * 2^64 + d0` for four field values, and the decoder gives
the one command R71 lists for them. -/
def Obligations.DecodeReadsTheFields : Prop :=
  (∀ w : CmdWord, ∃ (op len : BitVec 4) (d1 d0 : Word),
    w.toNat = op.toNat * 2 ^ 132 + len.toNat * 2 ^ 128 + d1.toNat * 2 ^ 64 + d0.toNat) ∧
  ∀ (w : CmdWord) (op len : BitVec 4) (d1 d0 : Word),
    w.toNat = op.toNat * 2 ^ 132 + len.toNat * 2 ^ 128 + d1.toNat * 2 ^ 64 + d0.toNat →
    decode w =
      if op = 0x1 then .init d0 d1
      else if op = 0x2 then (if len.toNat ≤ 8 then .absorb len d0 else .illegal op len)
      else if op = 0x3 then .final
      else .illegal op len

/-- Decode and encode agree on every well-formed command: no bit of an encoding is dropped. -/
def Obligations.DecodeOfEncodeIsTheCommand : Prop :=
  ∀ i : Instr, i.wf = true → decode (encode i) = i

/-- Decoding is total (R71): whatever the word, the result is a well-formed command. -/
def Obligations.EveryWordDecodesWellFormed : Prop :=
  ∀ w : CmdWord, (decode w).wf = true

/-- R77 and R162: which words are `ILLEGAL`, and what every one of them does in every `phase`. -/
def Obligations.IllegalEncodingsRaiseIllegalCmd : Prop :=
  ∀ w : CmdWord,
    ((∃ op len, decode w = .illegal op len) ↔
      (w.toNat / 2 ^ 132 = 0 ∨ 4 ≤ w.toNat / 2 ^ 132 ∨
        (w.toNat / 2 ^ 132 = 2 ∧ 9 ≤ w.toNat / 2 ^ 128 % 16))) ∧
    ((∃ op len, decode w = .illegal op len) → ∀ s : State,
      (s.fault = false → exec (decode w) s = .next { s with fault := true, fcause := 1 }) ∧
      (s.fault = true → exec (decode w) s = .next s)) ∧
    ∀ (op len : BitVec 4) (s : State), s.fault = false →
      exec (.illegal op len) s = .next { s with fault := true, fcause := 1 }

/-- R76 and R126, on unused fields: neither `len` of `INIT` nor any field of `FINAL` changes what is decoded; neither `d1` of
`ABSORB` nor the bytes of its `d0` at index `len` and above change what is done (decoding keeps these bytes, the beat masks
them, R74); and neither `d1` nor `d0` of an `ILLEGAL` encoding changes what is decoded. -/
def Obligations.UnusedFieldsHaveNoEffect : Prop :=
  (∀ (len : BitVec 4) (k1 k0 : Word), decode (packFields 0x1 len k1 k0) = .init k0 k1) ∧
  (∀ (len : BitVec 4) (d1 d0 : Word), decode (packFields 0x3 len d1 d0) = .final) ∧
  (∀ (len : BitVec 4) (d1 d0 : Word) (s : State), len.toNat ≤ 8 →
    exec (decode (packFields 0x2 len d1 d0)) s =
      exec (decode (packFields 0x2 len 0 (d0 &&& BitVec.ofNat 64 (2 ^ (8 * len.toNat) - 1)))) s) ∧
  (∀ (op len : BitVec 4) (d1 d0 : Word), op ≠ 0x1 → (op = 0x2 → 8 < len.toNat) →
    decode (packFields op len d1 d0) = decode (packFields op len 0 0))

/-- The canonical word of a command (R76, R79) does what the command does, and decodes to the canonical command. -/
def Obligations.CanonicalWordDoesTheSame : Prop :=
  ∀ i : Instr, i.wf = true →
    decode (encode (canonical i)) = canonical i ∧ ∀ s : State, exec (canonical i) s = exec i s

/-- R79, `ABSORB [b0 ... b(n-1)]`: the beat assembled from `n` bytes contributes exactly those bytes, in order. -/
def Obligations.AssembledBeatCarriesItsBytes : Prop :=
  ∀ bs : List Byte, bs.length ≤ 8 →
    assemble (.absorbBytes bs) =
      some (packFields 0x2 (BitVec.ofNat 4 bs.length) 0 (packBytes bs)) ∧
    beatBytes (BitVec.ofNat 4 bs.length) (packBytes bs) = bs

/-! ### The step (spec/60_exceptions.md R160) -/

/-- A command word at the head of the host's moves is taken off and run: `step` is `exec` of what it decodes to. -/
def Obligations.StepRunsTheDecodedCommand : Prop :=
  ∀ (s : State) (w : CmdWord) (rest : List HostMove) (i : Instr),
    s.host = .command w :: rest → decode w = i → step s = exec i { s with host := rest }

/-- "The step never blocks" (R160): every state has a next state. With no move of the host the core is idle, its
registers held (R178, R192); that an idle step is a step at all is the model's choice (notes/assumptions/2.md). -/
def Obligations.StepAlwaysAnswersNext : Prop :=
  (∀ s : State, ∃ t, step s = .next t) ∧ ∀ s : State, s.host = [] → step s = .next s

/-- R59 (a): the machine stepped through the host's moves ends in `step(... step(step(s0, c1), c2) ..., cn)`; no command
is reordered, merged, dropped or repeated. -/
def Obligations.StepsFollowTheHostsMoves : Prop :=
  ∀ (ms rest : List HostMove) (s : State), s.host = ms ++ rest →
    Host.Core.run core ms.length s = .next { runMoves s ms with host := rest }

/-! ### Reset (spec/10_state.md R36; spec/70_reset_and_hazards.md R190 to R192) -/

/-- R36, the table of reset values, and what is observable of them. -/
def Obligations.ResetValues : Prop :=
  State.reset.v0 = 0 ∧ State.reset.v1 = 0 ∧ State.reset.v2 = 0 ∧ State.reset.v3 = 0 ∧
  State.reset.tail = 0 ∧ State.reset.tcnt = 0 ∧ State.reset.total = 0 ∧ State.reset.phase = .empty ∧
  State.reset.fault = false ∧ State.reset.fcause = 0 ∧ State.reset.digest = 0 ∧
  phaseO State.reset = 0b00 ∧ faultO State.reset = 0 ∧ fcauseO State.reset = 0 ∧
  digestO State.reset = 0 ∧ digestValid State.reset = 0 ∧
  (∀ len d0, len.toNat ≤ 8 → exec (.absorb len d0) State.reset = .next { State.reset with fault := true, fcause := 2 }) ∧
  exec .final State.reset = .next { State.reset with fault := true, fcause := 2 }

/-- R190: the reset move gives every register its reset value, whatever the state before (R191). -/
def Obligations.ResetMoveGivesTheResetState : Prop :=
  ∀ (s : State) (rest : List HostMove), s.host = .reset :: rest →
    step s = .next { State.reset with host := rest }

/-! ### INIT (spec/40_construction.md) -/

/-- R90 and R92: `INIT` constructs an engine in every `phase`; while `fault = 1` it is ignored. -/
def Obligations.InitConstructsAnEngine : Prop :=
  ∀ (len : BitVec 4) (k0 k1 : Word) (s : State),
    decode (packFields 0x1 len k1 k0) = .init k0 k1 ∧
    (s.fault = false →
      exec (.init k0 k1) s = .next { s with
        v0 := 0x736f6d6570736575 ^^^ k0, v1 := 0x646f72616e646f6d ^^^ k1,
        v2 := 0x6c7967656e657261 ^^^ k0, v3 := 0x7465646279746573 ^^^ k1,
        tail := 0, tcnt := 0, total := 0, digest := 0, phase := .active }) ∧
    (s.fault = true → exec (.init k0 k1) s = .next s)

/-- R93: after `INIT` no register depends on anything that happened before it, except `fault` and `fcause`. -/
def Obligations.InitForgetsThePast : Prop :=
  ∀ (k0 k1 : Word) (s t : State), s.fault = false → t.fault = false →
    exec (.init k0 k1) t = .next { runInstr s (.init k0 k1) with fcause := t.fcause, host := t.host }

/-- The key corner cases of R94, an inference of the spec from R90: every key is legal, the zero key leaves the constants,
and no key leaves the all-zero state. -/
def Obligations.EveryKeyGivesANonzeroEngine : Prop :=
  ∀ (k0 k1 : Word) (s : State), s.fault = false →
    ∃ t, exec (.init k0 k1) s = .next t ∧ t.fault = false ∧ t.phase = .active ∧
      t.v0 ^^^ t.v2 = 0x1f160a001e161714 ∧ t.v1 ^^^ t.v3 = 0x100a160317100a1e ∧
      ¬ (t.v0 = 0 ∧ t.v1 = 0 ∧ t.v2 = 0 ∧ t.v3 = 0) ∧
      (k0 = 0 ∧ k1 = 0 → t.v0 = iv0 ∧ t.v1 = iv1 ∧ t.v2 = iv2 ∧ t.v3 = iv3) ∧
      (k0 = iv0 ∧ k1 = iv1 →
        t.v0 = 0 ∧ t.v1 = 0 ∧ t.v2 = 0x1f160a001e161714 ∧ t.v3 = 0x100a160317100a1e)

/-! ### The mixing round (spec/41_sipround_compress.md) -/

/-- R102: rotation moves bit `i` to bit `(i + n) mod 64`, for every amount `0 < n < 64`. -/
def Obligations.RotationMovesEveryBit : Prop :=
  ∀ (x : Word) (n i : Nat), 0 < n → n < 64 → i < 64 → (rotl64 x n).getLsbD ((i + n) % 64) = x.getLsbD i

/-- R103 and R105: a round and `compressWord` written out, in the two stages that R104 derives from the fourteen steps,
with the library's own rotation; `compressWord` runs exactly two rounds between its two XORs. -/
def Obligations.RoundAndCompressAsWritten : Prop :=
  ∀ (v0 v1 v2 v3 m : Word),
    (sipRound ⟨v0, v1, v2, v3⟩ =
      let a0 := v0 + v1
      let a2 := v2 + v3
      let b1 := v1.rotateLeft 13 ^^^ a0
      let b3 := v3.rotateLeft 16 ^^^ a2
      let d0 := a0.rotateLeft 32 + b3
      let d2 := a2 + b1
      ⟨d0, b1.rotateLeft 17 ^^^ d2, d2.rotateLeft 32, b3.rotateLeft 21 ^^^ d0⟩) ∧
    (compressWord m ⟨v0, v1, v2, v3⟩ =
      let r := sipRound (sipRound ⟨v0, v1, v2, v3 ^^^ m⟩)
      ⟨r.v0 ^^^ m, r.v1, r.v2, r.v3⟩)

/-- `sipRound` is a bijection, undone on both sides by the inverse that R104 writes out: an inference of the spec from the
fourteen steps of R103. -/
def Obligations.RoundHasTheStatedInverse : Prop :=
  ∀ m : Mix, sipRoundInverse (sipRound m) = m ∧ sipRound (sipRoundInverse m) = m

/-- "`compressWord` is a bijection on states for every fixed `m`": R107, an inference of the spec from R103 and R105. -/
def Obligations.CompressWordIsABijection : Prop :=
  ∀ w : Word, Function.Bijective (compressWord w)

/-- The rounds a command runs, counted one by one on a path through the mixing registers that ends, for every command and
state, in the very values `exec` leaves there. The counts are those of R204 (`INIT` 0; `ABSORB` 2 if a word completes, else
0; `FINAL` 6), and hashing a message of `N` bytes costs `2 * (floor(N/8) + 1) + 4` rounds: R106, an inference of the spec
from R105, R124 and R140. -/
def Obligations.HashCostInRounds : Prop :=
  (∀ (i : Instr) (s : State), ∃ t, exec i s = .next t ∧ t.mix = (countedExec i s).mix) ∧
  (∀ (k0 k1 : Word) (s : State), roundCount (.init k0 k1) s = 0) ∧
  (∀ (len : BitVec 4) (d0 : Word) (s : State), len.toNat ≤ 8 → s.fault = false → s.phase = .active →
    roundCount (.absorb len d0) s = if 8 ≤ s.tcnt.toNat + len.toNat then 2 else 0) ∧
  (∀ s : State, s.fault = false → s.phase = .active → roundCount .final s = 6) ∧
  (∀ (s : State) (k0 k1 : Word) (bs : List Byte), s.fault = false →
    roundCounts s (Pseudo.hash k0 k1 bs).expand = 2 * (bs.length / 8 + 1) + 4)

/-! ### ABSORB (spec/42_ingestion.md) -/

/-- R124: what a beat of 0 to 8 bytes does in `phase = ACTIVE`, every register of it. -/
def Obligations.AbsorbIngestsABeat : Prop :=
  ∀ (len : BitVec 4) (d0 : Word) (s : State), len.toNat ≤ 8 → s.fault = false → s.phase = .active →
    let m : Word := d0 &&& BitVec.ofNat 64 (2 ^ (8 * len.toNat) - 1)
    let acc : BitVec 128 := s.tail.setWidth 128 ||| (m.setWidth 128 <<< (8 * s.tcnt.toNat))
    let v := compressWord (acc.setWidth 64) ⟨s.v0, s.v1, s.v2, s.v3⟩
    exec (.absorb len d0) s = .next
      (if 8 ≤ s.tcnt.toNat + len.toNat then
        { s with
          v0 := v.v0, v1 := v.v1, v2 := v.v2, v3 := v.v3, tail := (acc >>> 64).setWidth 64,
          tcnt := BitVec.ofNat 3 (s.tcnt.toNat + len.toNat - 8), total := s.total + BitVec.ofNat 64 len.toNat }
      else
        { s with
          tail := acc.setWidth 64, tcnt := BitVec.ofNat 3 (s.tcnt.toNat + len.toNat),
          total := s.total + BitVec.ofNat 64 len.toNat })

/-- R124, R164, R172: where `ABSORB` traps, for every `len` from 0 to 8, and what the trap writes (R165). -/
def Obligations.AbsorbTrapsOutsideActive : Prop :=
  ∀ (len : BitVec 4) (d0 : Word) (s : State), len.toNat ≤ 8 → s.fault = false →
    (s.phase = .empty → exec (.absorb len d0) s = .next { s with fault := true, fcause := 2 }) ∧
    (s.phase = .done → exec (.absorb len d0) s = .next { s with fault := true, fcause := 3 })

/-- The model's choice (notes/assumptions/3.md): a term `absorb` with `len` above 8, which no word decodes to, raises the
cause R77 gives to such an encoding, in every `phase`. -/
def Obligations.AbsorbTooLongRaisesIllegalCmd : Prop :=
  ∀ (len : BitVec 4) (d0 : Word) (s : State), 8 < len.toNat → s.fault = false →
    exec (.absorb len d0) s = .next { s with fault := true, fcause := 1 }

/-- R125, the table of corner cases, an inference of the spec from R124, in a state whose tail is clean (INV3 of R32, which
holds in every reachable state). -/
def Obligations.AbsorbCornerCases : Prop :=
  ∀ (len : BitVec 4) (d0 : Word) (s : State), len.toNat ≤ 8 → s.fault = false → s.phase = .active → TailClean s →
    ∃ t, exec (.absorb len d0) s = .next t ∧
      (len = 0 → t = s) ∧
      (s.tcnt = 0 → len = 8 → t.mix = compressWord d0 s.mix ∧ t.tail = 0 ∧ t.tcnt = 0) ∧
      (s.tcnt = 0 → len.toNat < 8 → t.mix = s.mix ∧ t.tail = d0 &&& lowmask len.toNat ∧ t.tcnt.toNat = len.toNat) ∧
      (s.tcnt ≠ 0 → len.toNat = 8 - s.tcnt.toNat →
        t.mix = compressWord (s.tail ||| ((d0 &&& lowmask len.toNat) <<< (8 * s.tcnt.toNat))) s.mix ∧
        t.tail = 0 ∧ t.tcnt = 0) ∧
      (s.tcnt ≠ 0 → len.toNat < 8 - s.tcnt.toNat →
        t.mix = s.mix ∧ t.tail = s.tail ||| ((d0 &&& lowmask len.toNat) <<< (8 * s.tcnt.toNat)) ∧
        t.tcnt.toNat = s.tcnt.toNat + len.toNat) ∧
      (s.tcnt ≠ 0 → 8 - s.tcnt.toNat < len.toNat →
        t.mix = compressWord (s.tail ||| (d0 <<< (8 * s.tcnt.toNat))) s.mix ∧
        t.tail = (d0 &&& lowmask len.toNat) >>> (8 * (8 - s.tcnt.toNat)) ∧
        t.tcnt.toNat = s.tcnt.toNat + len.toNat - 8) ∧
      (s.tcnt = 7 → len = 8 → t.tail = d0 >>> 8 ∧ t.tcnt = 7)

/-- R22, R53, R56, R121: where each byte of the beat lands. Byte `j` of the word being filled is the pending byte `j`
below `tcnt` and byte `j - tcnt` of the beat from there on; the bytes beyond it start the new tail at byte 0. -/
def Obligations.AbsorbPlacesEveryByte : Prop :=
  ∀ (len : BitVec 4) (d0 : Word) (s : State), len.toNat ≤ 8 → s.fault = false → s.phase = .active → TailClean s →
    ∃ (t : State) (word : Word), exec (.absorb len d0) s = .next t ∧
      (∀ j, j < 8 → byteOf word j =
        if j < s.tcnt.toNat then byteOf s.tail j
        else if j < s.tcnt.toNat + len.toNat then byteOf d0 (j - s.tcnt.toNat) else 0) ∧
      (s.tcnt.toNat + len.toNat < 8 → t.mix = s.mix ∧ t.tail = word) ∧
      (8 ≤ s.tcnt.toNat + len.toNat → t.mix = compressWord word s.mix ∧
        ∀ j, j < 8 → byteOf t.tail j =
          if j < s.tcnt.toNat + len.toNat - 8 then byteOf d0 (8 - s.tcnt.toNat + j) else 0)

/-- R128: `total` wraps modulo 2^64, no fault is raised, and `total mod 8 = tcnt` stays true across the wrap. -/
def Obligations.TotalWrapsWithoutFault : Prop :=
  ∀ (len : BitVec 4) (d0 : Word) (s : State), len.toNat ≤ 8 → s.fault = false → s.phase = .active →
    ∃ t, exec (.absorb len d0) s = .next t ∧ t.total.toNat = (s.total.toNat + len.toNat) % 2 ^ 64 ∧
      t.fault = false ∧ (CountsAgree s → CountsAgree t) ∧
      (s.total = 0xfffffffffffffffd → s.tcnt = 5 → len = 4 → t.total = 1 ∧ t.tcnt = 1)

/-- R25: only the low byte of `total` is ever read. Two states that differ in `total` alone, and there not modulo 256,
stay so through every sequence of commands, whatever it shows at the ports. -/
def Obligations.OnlyTheLowByteOfTotalIsRead : Prop :=
  ∀ (s : State) (n : Word) (is : List Instr), n.toNat % 256 = s.total.toNat % 256 →
    ∃ n' : Word, runInstrs { s with total := n } is = { runInstrs s is with total := n' } ∧
      n'.toNat % 256 = (runInstrs s is).total.toNat % 256

/-- R124: `ABSORB` is `add(B)` of R120 for the chunk of its bytes, faults included, in every state with a clean tail
(INV3 of R32; the stale bytes of an unreachable state are treated differently by the two). The spec infers it from R120. -/
def Obligations.AbsorbIsAddOfItsBytes : Prop :=
  ∀ (len : BitVec 4) (d0 : Word) (s : State), len.toNat ≤ 8 → TailClean s →
    exec (.absorb len d0) s = .next (s.add (beatBytes len d0))

/-- R123 (a), an inference of the spec from R120: `add(B)` is the bytes of `B` added one at a time, after the phase check. -/
def Obligations.AddIsByteAtATime : Prop :=
  ∀ (s : State) (bs : List Byte), s.fault = false → s.phase = .active → TailClean s →
    s.add bs = bs.foldl State.addByte s

/-- R127, chunking invariance: every cutting of a byte sequence into chunks, or into `ABSORB` beats, leaves the state that
one `add` of the whole leaves. For the whole state the spec infers it from R120. INV3 of R32 stands as a premise: it holds
in every reachable state. -/
def Obligations.ChunkingInvariance : Prop :=
  ∀ s : State, s.fault = false → s.phase = .active → TailClean s →
    (∀ chunks : List (List Byte), chunks.foldl State.add s = s.add chunks.flatten) ∧
    (∀ beats : List (BitVec 4 × Word), LegalBeats beats →
      runInstrs s (beatsInstrs beats) = s.add (beatsMessage beats))

/-- R123 (b), an inference of the spec from R120: the closed form of the state after `INIT` and any cutting of a
message into beats. -/
def Obligations.IngestionClosedForm : Prop :=
  ∀ (s : State) (k0 k1 : Word) (beats : List (BitVec 4 × Word)), s.fault = false → LegalBeats beats →
    let msg := beatsMessage beats
    let t := runInstrs s (.init k0 k1 :: beatsInstrs beats)
    t.mix = (messageWords msg).foldl (fun m w => compressWord w m) (keyedMix k0 k1) ∧
    t.tail = packBytes (tailBytes msg) ∧ t.tcnt.toNat = msg.length % 8 ∧
    t.total.toNat = msg.length % 2 ^ 64 ∧ t.phase = .active ∧ t.digest = 0 ∧
    t.fault = false ∧ t.fcause = s.fcause ∧ t.host = s.host

/-! ### FINAL (spec/43_finalization.md) -/

/-- R140 and R145: what `FINAL` does in `phase = ACTIVE`, every register of it. -/
def Obligations.FinalProducesTheDigest : Prop :=
  ∀ s : State, s.fault = false → s.phase = .active →
    let b := s.tail ||| (BitVec.ofNat 64 (s.total.toNat % 256) <<< 56)
    let c := compressWord b ⟨s.v0, s.v1, s.v2, s.v3⟩
    let r := sipRound (sipRound (sipRound (sipRound { c with v2 := c.v2 ^^^ 0x00000000000000ff })))
    exec .final s = .next { s with
      v0 := r.v0, v1 := r.v1, v2 := r.v2, v3 := r.v3, digest := r.v0 ^^^ r.v1 ^^^ r.v2 ^^^ r.v3, phase := .done }

/-- R140, R164, R172: where `FINAL` traps, and what the trap writes (R165). -/
def Obligations.FinalTrapsOutsideActive : Prop :=
  ∀ s : State, s.fault = false →
    (s.phase = .empty → exec .final s = .next { s with fault := true, fcause := 2 }) ∧
    (s.phase = .done → exec .final s = .next { s with fault := true, fcause := 4 })

/-- R141: with INV3 of R32 the length byte stands alone in bits 63:56 of the padded word over the pending bytes,
and after `INIT` and any beats the padded word is a function of the message alone. -/
def Obligations.PaddedWordIsTailAndLength : Prop :=
  (∀ s : State, TailClean s →
    byteOf (paddedWord s.tail s.total) 7 = BitVec.ofNat 8 s.total.toNat ∧
    (∀ j, j < 7 → byteOf (paddedWord s.tail s.total) j = if j < s.tcnt.toNat then byteOf s.tail j else 0) ∧
    s.tail &&& (BitVec.ofNat 64 (s.total.toNat % 256) <<< 56) = 0) ∧
  (∀ (s : State) (k0 k1 : Word) (beats : List (BitVec 4 × Word)), s.fault = false → LegalBeats beats →
    let t := runInstrs s (.init k0 k1 :: beatsInstrs beats)
    paddedWord t.tail t.total = messagePadding (beatsMessage beats))

/-- The length byte separates messages that differ only by trailing zero bytes (R149, an inference of the spec from R141):
lengths that differ modulo 256 give different padded words, and equal ones a different number of compressed words. -/
def Obligations.LengthByteSeparatesTrailingZeros : Prop :=
  ∀ (bs : List Byte) (n : Nat), 0 < n →
    let longer := bs ++ List.replicate n 0
    (longer.length % 256 ≠ bs.length % 256 → messagePadding longer ≠ messagePadding bs) ∧
    (longer.length % 256 = bs.length % 256 → (messageWords longer).length ≠ (messageWords bs).length)

/-- R146: the digest sized to the native width, and the examples of R146. -/
def Obligations.NativeDigestIsSized : Prop :=
  ∀ s : State,
    digestNative .w64 s = s.digest ∧
    (digestNative .w32 s).toNat = (s.digest.toNat / 2 ^ 32) ^^^ (s.digest.toNat % 2 ^ 32) ∧
    (s.digest = 0xa129ca6149be45e5 →
      digestNative .w32 s = (0xe8978f84 : BitVec 32) ∧ digestNative .w64 s = (0xa129ca6149be45e5 : BitVec 64))

/-- R147: the signed reading is the two's complement value of the bits (which the spec takes from general knowledge, G2), and
its examples. -/
def Obligations.NativeDigestReadsSigned : Prop :=
  ∀ (w : NativeWidth) (s : State),
    nativeSigned w s =
      (if 2 * (digestNative w s).toNat < 2 ^ w.bits then ((digestNative w s).toNat : Int)
        else ((digestNative w s).toNat : Int) - 2 ^ w.bits) ∧
    (s.digest = 0xa129ca6149be45e5 →
      nativeSigned .w64 s = -6833708440360172059 ∧ nativeSigned .w32 s = -392720508) ∧
    (s.digest = 0x726fdb47dd0e0e31 → nativeSigned .w64 s = 8246050544436514353)

/-- R148, the function computed: from any state with `fault = 0`, `INIT`, any cutting of a message into beats, and `FINAL`
leave `phase = DONE`, `fault = 0` and the SipHash-2-4 digest of the key and the message, of whatever length: an inference of
the spec from R90, R120, R140 and R141. -/
def Obligations.HardwareComputesSipHash24 : Prop :=
  ∀ (s : State) (k0 k1 : Word) (beats : List (BitVec 4 × Word)), s.fault = false → LegalBeats beats →
    let t := runInstrs s (.init k0 k1 :: beatsInstrs beats ++ [.final])
    t.phase = .done ∧ t.fault = false ∧ t.digest = sipHash24 k0 k1 (beatsMessage beats)

/-- R80: `ADD` performs `add` of a byte sequence of any length, faults included; `ADDB` that of one byte. `HASH` leaves
the SipHash-2-4 digest of its message: R148, an inference of the spec from R90, R120, R140 and R141. -/
def Obligations.PseudoInstructionsPerformTheirOperations : Prop :=
  (∀ (s : State) (bs : List Byte), TailClean s → runInstrs s (Pseudo.add bs).expand = s.add bs) ∧
  (∀ (s : State) (b : Byte), TailClean s → runInstrs s (Pseudo.addb b).expand = s.add [b]) ∧
  (∀ (s : State) (k0 k1 : Word) (bs : List Byte), s.fault = false →
    let t := runInstrs s (Pseudo.hash k0 k1 bs).expand
    t.phase = .done ∧ t.fault = false ∧ t.digest = sipHash24 k0 k1 bs)

/-! ### Faults (spec/60_exceptions.md) and the lifecycle (spec/10_state.md) -/

/-- R167: while `fault = 1` every command word is accepted and ignored, however many of them. -/
def Obligations.FaultedCoreIgnoresEveryCommand : Prop :=
  ∀ s : State, s.fault = true →
    (∀ i : Instr, exec i s = .next s) ∧
    (∀ (w : CmdWord) (rest : List HostMove), s.host = .command w :: rest → step s = .next { s with host := rest }) ∧
    (∀ ws : List CmdWord, runWords s ws = s)

/-- R165 and R166: a command that ends with `fault = 1` has made two writes and no other: `fault`, and the cause into
`fcause`. `digest_valid` is 0 then, also where `DONE` held a digest, which `digest_o` still shows. -/
def Obligations.FaultsArePrecise : Prop :=
  ∀ (i : Instr) (s t : State), s.fault = false → exec i s = .next t → t.fault = true →
    t = { s with fault := true, fcause := t.fcause } ∧
    (t.fcause = 1 ∨ t.fcause = 2 ∨ t.fcause = 3 ∨ t.fcause = 4) ∧
    (i.wf = true → ∃ c, causeOf i s.phase = some c ∧ t.fcause = c.code) ∧
    digestValid t = 0 ∧ digestO t = digestO s

/-- R161 and R163: which cause a command reports, decode before lifecycle; it depends on `op`, `len` and `phase` alone
(R173). -/
def Obligations.CausesAsTabulated : Prop :=
  ∀ (i : Instr) (s : State), i.wf = true → s.fault = false →
    ∃ t, exec i s = .next t ∧
      match causeOf i s.phase with
      | some c => t = { s with fault := true, fcause := c.code }
      | none => t.fault = false ∧ t.fcause = s.fcause

/-- R27: the lifecycle table, for every word in every `phase`; a fault leaves `phase` as it was; and reset takes every
state to `EMPTY` with `fault = 0`. -/
def Obligations.PhaseTransitionsAsTabulated : Prop :=
  (∀ (w : CmdWord) (s : State), s.fault = false →
    ∃ t, exec (decode w) s = .next t ∧
      match causeOf (decode w) s.phase with
      | some c => t.phase = s.phase ∧ t.fault = true ∧ t.fcause = c.code
      | none => t.phase = nextPhase (decode w) s.phase ∧ t.fault = false) ∧
  (∀ (w : CmdWord) (s : State), s.fault = true → exec (decode w) s = .next s) ∧
  (∀ (s : State) (rest : List HostMove), s.host = .reset :: rest →
    ∃ t, step s = .next t ∧ t.phase = .empty ∧ t.fault = false)

/-- R28, R168, R190: a step that clears `fault`, or changes `fcause` while `fault = 1`, is a reset. -/
def Obligations.OnlyResetClearsFault : Prop :=
  ∀ s t : State, step s = .next t → s.fault = true → (t.fault = false ∨ t.fcause ≠ s.fcause) →
    ∃ rest, s.host = .reset :: rest

/-- R28 and R194: a fault anywhere in a run shows at its end, so every beginning of a good run is good. -/
def Obligations.GoodRunsHaveGoodBeginnings : Prop :=
  ∀ ws more : List CmdWord, GoodRun (ws ++ more) → GoodRun ws

/-- R169: in `phase = DONE` no `ABSORB` and no `FINAL` changes an engine register or the digest. -/
def Obligations.DoneEngineIsLeftAlone : Prop :=
  ∀ (i : Instr) (s t : State), s.phase = .done → exec i s = .next t → (∀ k0 k1, i ≠ .init k0 k1) → SameData s t

/-- The "written by" column of R20: a step that changes a register is a move that R20 names for it. It is a reset; or it
changes none of the eleven; or it is a violating command in an unfaulted state, which writes `fault` and `fcause` alone; or
one of the three commands, which write neither of these two. -/
def Obligations.RegistersHaveNoOtherWriters : Prop :=
  ∀ s t : State, step s = .next t →
    (∃ rest, s.host = .reset :: rest) ∨
    (SameData s t ∧ t.fault = s.fault ∧ t.fcause = s.fcause) ∨
    ∃ w rest, s.host = .command w :: rest ∧ s.fault = false ∧
      ((∃ c, causeOf (decode w) s.phase = some c ∧ SameData s t ∧ t.fault = true ∧ t.fcause = c.code) ∨
        (∃ k0 k1, decode w = .init k0 k1 ∧ t.fault = s.fault ∧ t.fcause = s.fcause) ∨
        (∃ len d0, decode w = .absorb len d0 ∧ s.phase = .active ∧ t.phase = s.phase ∧ t.digest = s.digest ∧
          t.fault = s.fault ∧ t.fcause = s.fcause ∧ (s.tcnt.toNat + len.toNat < 8 → t.mix = s.mix)) ∨
        (decode w = .final ∧ s.phase = .active ∧ t.tail = s.tail ∧ t.tcnt = s.tcnt ∧ t.total = s.total ∧
          t.fault = s.fault ∧ t.fcause = s.fcause))

/-- R30: the ports as functions of the registers. -/
def Obligations.PortsShowTheRegisters : Prop :=
  ∀ (w : NativeWidth) (s : State),
    (outputs w s).phaseO = (match s.phase with | .empty => 0b00 | .active => 0b01 | .done => 0b10) ∧
    (outputs w s).faultO = (if s.fault then 1 else 0) ∧
    (outputs w s).fcauseO = s.fcause ∧
    (outputs w s).digestValid = (if s.phase = .done ∧ s.fault = false then 1 else 0) ∧
    (outputs w s).digestO = s.digest ∧
    (outputs w s).digestNative = digestNative w s

/-- R21, R50, R173 with spec/20_memory.md R50: until a `FINAL`, the ports tell nothing of the key or the message. Two
states that show the same, given commands of the same opcodes and lengths and no `FINAL`, still show the same. -/
def Obligations.PortsHideKeyAndMessage : Prop :=
  ∀ (nw : NativeWidth) (ws us : List CmdWord) (s t : State), SameAtPorts s t →
    List.Forall₂ (fun w u => opField w = opField u ∧ lenField w = lenField u ∧ opField w ≠ 0x3) ws us →
    outputs nw (runWords s ws) = outputs nw (runWords t us)

/-- R173: no data value can cause a fault. With `FINAL` allowed too, two runs of the same opcodes and lengths agree on
`phase`, `fault` and `fcause`. -/
def Obligations.NoDataValueCausesAFault : Prop :=
  ∀ (ws us : List CmdWord) (s t : State), s.phase = t.phase → s.fault = t.fault → s.fcause = t.fcause →
    List.Forall₂ (fun w u => opField w = opField u ∧ lenField w = lenField u) ws us →
    (runWords s ws).phase = (runWords t us).phase ∧ (runWords s ws).fault = (runWords t us).fault ∧
    (runWords s ws).fcause = (runWords t us).fcause

/-! ### Invariants (spec/10_state.md R32) -/

/-- INV1 to INV7 hold after reset. That they are invariants at all the spec infers (R32) from R36, R90, R124 and R140. -/
def Obligations.InvariantsHoldAtReset : Prop := Invariants State.reset

/-- Every step keeps INV1 to INV7, whatever `phase` and `fault`, and whatever move the host makes. -/
def Obligations.StepKeepsTheInvariants : Prop :=
  ∀ s t : State, Invariants s → step s = .next t → Invariants t

/-- R32: INV1 to INV7 hold in every reachable state, whatever moves the host made. -/
def Obligations.InvariantsHoldInEveryReachableState : Prop :=
  ∀ ms : List HostMove, Invariants (runMoves State.reset ms)

/-! ### The clocked port (spec/70_reset_and_hazards.md R190, R191, R198, R199, R204) -/

/-- R198 with R59 and R191: clock cycle by clock cycle, with any latencies, the block does what the accepted words and the
resets do one after another; a host that sees `cmd_ready = 1` sees a state between commands. -/
def Obligations.CyclesRefineTheRun : Prop :=
  ∀ (c : Config) (ps : List Pins) (p q : PortState), cycles c ps p = .next q →
    q.settled = runMoves p.settled (cyclesMoves c ps p) ∧
    (q.cmdReady = true → q.core = runMoves p.settled (cyclesMoves c ps p) ∧
      sampledPorts c q = outputs c.nativeWidth q.core)

/-- R198: a cycle in which `cmd_valid = 1`, `cmd_ready = 1` and no reset is applied accepts the word; with a busy time of 0
its writes are visible at once, else the core is busy and its registers are still the old ones. -/
def Obligations.AcceptanceStartsTheCommand : Prop :=
  ∀ (c : Config) (pins : Pins) (p : PortState), resetApplied c pins = false → p.cmdReady = true →
    pins.cmdValid = true → (p.offer = none ∨ p.offer = some pins.cmdWord) →
    ∃ q, cycle c pins p = .next q ∧ q.offer = none ∧
      (busyTime c pins.cmdWord p.core = 0 → q.cmdReady = true ∧ q.core = runWord p.core pins.cmdWord) ∧
      (∀ n, busyTime c pins.cmdWord p.core = n + 1 →
        q.cmdReady = false ∧ q.busy = some ⟨pins.cmdWord, n⟩ ∧ q.core = p.core)

/-- R198, R204: every accepted command completes, after finitely many cycles, whatever the host does meanwhile within its
duty (R199), reset apart. With `left` busy cycles after the next one the core is ready after `left + 1` cycles, and its
registers are those of the command; after fewer cycles it is busy and its registers are the old ones. -/
def Obligations.AcceptedCommandCompletes : Prop :=
  ∀ (c : Config) (ps : List Pins) (p : PortState) (f : InFlight), p.busy = some f →
    (∀ pins ∈ ps, resetApplied c pins = false) → offersKept p.offer ps = true →
    (ps.length = f.left + 1 →
      ∃ q, cycles c ps p = .next q ∧ q.cmdReady = true ∧ q.core = runWord p.core f.word) ∧
    (ps.length ≤ f.left → ∃ q, cycles c ps p = .next q ∧ q.cmdReady = false ∧ q.core = p.core)

/-- R191: reset wins over everything. Whatever is in progress or offered, the block after the cycle has the reset registers,
is ready, and has made none of the writes. -/
def Obligations.ResetWinsOverEverything : Prop :=
  ∀ (c : Config) (pins : Pins) (p : PortState), resetApplied c pins = true →
    ∃ q, cycle c pins p = .next q ∧ q.cmdReady = true ∧ q.core = { State.reset with host := p.core.host }

/-- R198: "`cmd_ready` stays 1 while `fault = 1`". The invariant that no command is in progress in a faulted core holds
after reset and every cycle keeps it, so a fault never blocks the host. -/
def Obligations.FaultNeverBlocksTheHost : Prop :=
  (PortState.reset.core.fault = true → PortState.reset.cmdReady = true) ∧
  ∀ (c : Config) (pins : Pins) (p q : PortState), (p.core.fault = true → p.cmdReady = true) →
    cycle c pins p = .next q → (q.core.fault = true → q.cmdReady = true)

/-- R199, U17: a host that withdraws or changes an offer not accepted yet is outside the model, by name. -/
def Obligations.ChangedOfferIsRefused : Prop :=
  ∀ (c : Config) (pins : Pins) (p : PortState) (w : CmdWord), resetApplied c pins = false → p.offer = some w →
    (pins.cmdValid = false ∨ pins.cmdWord ≠ w) → cycle c pins p = .refused .offerChanged
end

