-- ==== Sys2Proof/Laws/Bytes.lean ====
section
/-!
SUPPORT. Bytes, masks and the two assembled words, bit by bit, and rotation as the library's own.
-/

namespace Sys2Proof.Machine

/-- Bit `i` of `lowmask n`. -/
theorem lowmask_bit (n i : Nat) : (lowmask n).getLsbD i = (decide (i < 8 * n) && decide (i < 64)) := by
  simp [lowmask, BitVec.getLsbD_ofNat, Nat.testBit_two_pow_sub_one, Bool.and_comm]

/-- Bit `i` of byte `k` of a word. -/
theorem byteOf_bit (w : Word) (k i : Nat) : (byteOf w k).getLsbD i = (decide (i < 8) && w.getLsbD (8 * k + i)) := by
  simp [byteOf, BitVec.getLsbD_extractLsb']

/-- Bit `i` of placed bytes: byte `i / 8 - k` of the list, within the word. -/
theorem placeBytes_bit (bs : List Byte) : ∀ k i, (placeBytes k bs).getLsbD i =
    (decide (i < 64) && decide (8 * k ≤ i) && (bs.getD (i / 8 - k) 0).getLsbD (i % 8)) := by
  induction bs with
  | nil => intro k i; simp [placeBytes]
  | cons b bs ih =>
    intro k i
    rw [placeBytes, BitVec.getLsbD_or, ih, BitVec.getLsbD_shiftLeft]
    by_cases h : i < 64
    · by_cases h1 : i < 8 * k
      · have : ¬ 8 * k ≤ i := by omega
        have : ¬ 8 * (k+1) ≤ i := by omega
        simp [*]
      · by_cases h2 : i < 8 * (k+1)
        · have a : i / 8 - k = 0 := by omega
          have b : i - 8 * k = i % 8 := by omega
          have c : i % 8 < 64 := by omega
          have d : ¬ 8 * (k+1) ≤ i := by omega
          have e : 8 * k ≤ i := by omega
          have h1' : (!decide (i < 8 * k)) = true := by simp [h1]
          rw [h1', a, b, BitVec.getLsbD_setWidth]
          simp [c, d, e, h]
        · have a : i / 8 - k = (i / 8 - (k+1)) + 1 := by omega
          have c : 8 ≤ i - 8 * k := by omega
          have d : 8 * (k+1) ≤ i := by omega
          have e : 8 * k ≤ i := by omega
          rw [a, BitVec.getLsbD_setWidth, BitVec.getLsbD_of_ge b _ c]
          simp [d, e, h]
    · simp [h]

/-- Placing two lists one behind the other. -/
theorem placeBytes_append (k : Nat) (as bs : List Byte) :
    placeBytes k (as ++ bs) = placeBytes k as ||| placeBytes (k + as.length) bs := by
  induction as generalizing k with
  | nil => simp [placeBytes]
  | cons a as ih => simp [placeBytes, ih, BitVec.or_assoc, Nat.add_assoc, Nat.add_comm 1]

/-- The low word of the accumulator, as a truncation. -/
theorem extract_low_word (a : BitVec 128) : a.extractLsb' 0 64 = a.setWidth 64 := by
  ext i hi
  have : i < 128 := by omega
  simp [BitVec.getLsbD_eq_getElem this]

/-- The high word of the accumulator, as a shift. -/
theorem extract_high_word (a : BitVec 128) : a.extractLsb' 64 64 = (a >>> 64).setWidth 64 := by ext i hi; simp

/-- `len` as a 64-bit count. -/
theorem ofNat_toNat_len (len : BitVec 4) : BitVec.ofNat 64 len.toNat = len.setWidth 64 := by
  apply BitVec.eq_of_toNat_eq
  simp

/-- The low byte of `total`, as a word. -/
theorem lowByte_word (total : Word) : (total.extractLsb' 0 8).setWidth 64 = BitVec.ofNat 64 (total.toNat % 256) := by
  apply BitVec.eq_of_toNat_eq; simp

/-- The word being filled: the pending bytes, and the beat above them. -/
theorem accumulator_low_word (tail : Word) (t : BitVec 3) (m : Word) :
    (accumulator tail t m).extractLsb' 0 64 = tail ||| (m <<< (8 * t.toNat)) := by
  ext i hi
  have : i < 128 := by omega
  by_cases c : i < 8 * t.toNat
  · simp [accumulator, this, c, hi]
  · have : i - 8 * t.toNat < 128 := by omega
    have b : i - 8 * t.toNat < 64 := by omega
    simp [accumulator, *]

/-- What a beat leaves beyond the word it completes. -/
theorem accumulator_high_word (tail : Word) (t : BitVec 3) (m : Word) :
    (accumulator tail t m).extractLsb' 64 64 = if t = 0 then 0#64 else m >>> (8 * (8 - t.toNat)) := by
  have ht := t.isLt
  split
  · rename_i h; subst h
    ext i hi
    have : 64 + i < 128 := by omega
    simp [accumulator, this]
  · rename_i h
    have h1 : t.toNat ≠ 0 := fun hh => h (BitVec.eq_of_toNat_eq (by simpa using hh))
    ext i hi
    have a : 64 + i < 128 := by omega
    have b : ¬ 64 + i < 8 * t.toNat := by omega
    have c : 64 + i - 8 * t.toNat = 8 * (8 - t.toNat) + i := by omega
    have d : 8 * (8 - t.toNat) + i < 128 := by omega
    simp [accumulator, a, b, c]

/-- A full beat is its own masked value (R74). -/
theorem and_lowmask_eight (d : Word) : d &&& lowmask 8 = d := by
  ext i hi
  rw [BitVec.getElem_and, ← BitVec.getLsbD_eq_getElem hi, ← BitVec.getLsbD_eq_getElem hi, lowmask_bit]; simp [hi]

/-- A beat one byte longer: that byte is ORed in above the others. -/
theorem accumulator_succ (tail : Word) (tcnt : BitVec 3) (d0 : Word) (n : Nat) (hn : n < 8) :
    accumulator tail tcnt (beatValue (BitVec.ofNat 4 (n + 1)) d0) =
      accumulator tail tcnt (beatValue (BitVec.ofNat 4 n) d0) |||
        ((byteOf d0 n).setWidth 128 <<< (8 * (tcnt.toNat + n))) := by
  have h1 : (n + 1) % 16 = n + 1 := by omega
  have h2 : n % 16 = n := by omega
  have ht := tcnt.isLt
  ext i hi
  simp only [accumulator, beatValue, BitVec.getElem_or, BitVec.getElem_shiftLeft, BitVec.getElem_setWidth,
      BitVec.getLsbD_and, lowmask_bit, byteOf_bit, BitVec.toNat_ofNat, h1, h2, Nat.reducePow]
  by_cases a : i < 8 * tcnt.toNat
  · have : i < 8 * (tcnt.toNat + n) := by omega
    simp [a, this]
  · by_cases b : i < 8 * (tcnt.toNat + n)
    · have c1 : i - 8 * tcnt.toNat < 8 * n := by omega
      have c2 : i - 8 * tcnt.toNat < 8 * (n+1) := by omega
      simp [a, b, c1, c2]
    · have c1 : ¬ i - 8 * tcnt.toNat < 8 * n := by omega
      have c3 : 8 * n + (i - 8 * (tcnt.toNat + n)) = i - 8 * tcnt.toNat := by omega
      by_cases c2 : i - 8 * tcnt.toNat < 8 * (n+1)
      · have c4 : i - 8 * (tcnt.toNat + n) < 8 := by omega
        have c5 : i - 8 * tcnt.toNat < 64 := by omega
        simp [a, b, c1, c2, c3, c4, c5]
      · have c4 : ¬ i - 8 * (tcnt.toNat + n) < 8 := by omega
        simp [a, b, c1, c2, c4]

/-- A clean tail has no bit at or above its valid bytes. -/
theorem tailClean_bit {s : State} (h : TailClean s) {i : Nat} (hi : 8 * s.tcnt.toNat ≤ i) : s.tail.getLsbD i =
    false := by
  have := congrArg (fun x => x.getLsbD (i - 8 * s.tcnt.toNat)) h
  simpa [BitVec.getLsbD_ushiftRight, Nat.add_sub_cancel' hi] using this

/-- And a tail without such a bit is clean. -/
theorem tailClean_of_bits {s : State} (h : ∀ i, 8 * s.tcnt.toNat ≤ i → i < 64 → s.tail.getLsbD i = false) :
    TailClean s := by
  unfold TailClean
  ext i hi
  rw [BitVec.getElem_ushiftRight]
  by_cases hb : 8 * s.tcnt.toNat + i < 64
  · simpa using h _ (by omega) hb
  · simpa using BitVec.getLsbD_of_ge s.tail _ (by omega)

/-- A clean tail of no bytes is zero. -/
theorem tail_of_tailClean_zero {s : State} (h : TailClean s) (h0 : s.tcnt = 0) : s.tail = 0 := by
  rw [TailClean, h0] at h; simpa using h

/-- The rotation of R10 is the library's rotation. -/
theorem rotl64_eq_rotateLeft (x : Word) (n : Nat) (h : n < 64) : rotl64 x n = x.rotateLeft n := by
  simp [rotl64, BitVec.rotateLeft, BitVec.rotateLeftAux, Nat.mod_eq_of_lt h]

end Sys2Proof.Machine
end

