-- ==== Sys2Proof/Laws/Encoding.lean ====
section
/-!
SUPPORT. The four fields of a command word as numbers, and the decoder on a packed word.
-/

namespace Sys2Proof.Machine

/-- R70: `cmd_word = op * 2^132 + len * 2^128 + d1 * 2^64 + d0`. -/
theorem packFields_toNat (op len : BitVec 4) (d1 d0 : Word) :
    (packFields op len d1 d0).toNat =
      op.toNat * 2 ^ 132 + len.toNat * 2 ^ 128 + d1.toNat * 2 ^ 64 + d0.toNat := by
  unfold packFields
  have h0 := d0.isLt
  have h1 := d1.isLt
  have h2 := len.isLt
  simp only [BitVec.toNat_append]
  rw [← Nat.shiftLeft_add_eq_or_of_lt h2, ← Nat.shiftLeft_add_eq_or_of_lt h1, ← Nat.shiftLeft_add_eq_or_of_lt h0]
  simp only [Nat.shiftLeft_eq]
  omega

/-- The field `op` as a number. -/
theorem opField_toNat (w : CmdWord) : (opField w).toNat = w.toNat / 2^132 := by
  have := w.isLt
  simp [opField, Nat.shiftRight_eq_div_pow]; omega

/-- The field `len` as a number. -/
theorem lenField_toNat (w : CmdWord) : (lenField w).toNat = w.toNat / 2^128 % 16 := by
  simp [lenField, Nat.shiftRight_eq_div_pow]

/-- The field `d1` as a number. -/
theorem d1Field_toNat (w : CmdWord) : (d1Field w).toNat = w.toNat / 2^64 % 2^64 := by
  simp [d1Field, Nat.shiftRight_eq_div_pow]

/-- The field `d0` as a number. -/
theorem d0Field_toNat (w : CmdWord) : (d0Field w).toNat = w.toNat % 2^64 := by
  simp [d0Field]

/-- A word with the number of four field values has these fields. -/
theorem fields_of_toNat {w : CmdWord} {op len : BitVec 4} {d1 d0 : Word}
   (h : w.toNat = op.toNat * 2 ^ 132 + len.toNat * 2 ^ 128 + d1.toNat * 2 ^ 64 + d0.toNat) :
   opField w = op ∧ lenField w = len ∧ d1Field w = d1 ∧ d0Field w = d0 := by
  have h0 := d0.isLt
  have h1 := d1.isLt
  have h2 := len.isLt
  have h3 := op.isLt
  refine ⟨BitVec.eq_of_toNat_eq ?_, BitVec.eq_of_toNat_eq ?_, BitVec.eq_of_toNat_eq ?_, BitVec.eq_of_toNat_eq ?_⟩
  · rw [opField_toNat, h]; omega
  · rw [lenField_toNat, h]; omega
  · rw [d1Field_toNat, h]; omega
  · rw [d0Field_toNat, h]; omega

/-- Decoding a packed word. -/
theorem decode_packFields (op len : BitVec 4) (d1 d0 : Word) :
    decode (packFields op len d1 d0) =
      if op = 1 then .init d0 d1
      else if op = 2 then (if len.toNat ≤ 8 then .absorb len d0 else .illegal op len)
      else if op = 3 then .final else .illegal op len := by
  obtain ⟨a, b, c, d⟩ := fields_of_toNat (packFields_toNat op len d1 d0)
  unfold decode
  rw [a, b, c, d]
  rfl

end Sys2Proof.Machine
end

