-- ==== Sys2Proof/Laws/State.lean ====
section
/-!
SUPPORT. What each named update of State does to each field, one lemma a pair, so that no proof unfolds a record update;
and the updates as they act on the mixing registers together.
-/

namespace Sys2Proof.Machine

@[simp] theorem State.setMix_v0 (s : State) (m : Mix) : (s.setMix m).v0 = m.v0 := rfl
@[simp] theorem State.setMix_v1 (s : State) (m : Mix) : (s.setMix m).v1 = m.v1 := rfl
@[simp] theorem State.setMix_v2 (s : State) (m : Mix) : (s.setMix m).v2 = m.v2 := rfl
@[simp] theorem State.setMix_v3 (s : State) (m : Mix) : (s.setMix m).v3 = m.v3 := rfl
@[simp] theorem State.setMix_tail (s : State) (m : Mix) : (s.setMix m).tail = s.tail := rfl
@[simp] theorem State.setMix_tcnt (s : State) (m : Mix) : (s.setMix m).tcnt = s.tcnt := rfl
@[simp] theorem State.setMix_total (s : State) (m : Mix) : (s.setMix m).total = s.total := rfl
@[simp] theorem State.setMix_phase (s : State) (m : Mix) : (s.setMix m).phase = s.phase := rfl
@[simp] theorem State.setMix_fault (s : State) (m : Mix) : (s.setMix m).fault = s.fault := rfl
@[simp] theorem State.setMix_fcause (s : State) (m : Mix) : (s.setMix m).fcause = s.fcause := rfl
@[simp] theorem State.setMix_digest (s : State) (m : Mix) : (s.setMix m).digest = s.digest := rfl
@[simp] theorem State.setMix_host (s : State) (m : Mix) : (s.setMix m).host = s.host := rfl

@[simp] theorem State.setTail_v0 (s : State) (a : Word) (n : BitVec 3) : (s.setTail a n).v0 = s.v0 := rfl
@[simp] theorem State.setTail_v1 (s : State) (a : Word) (n : BitVec 3) : (s.setTail a n).v1 = s.v1 := rfl
@[simp] theorem State.setTail_v2 (s : State) (a : Word) (n : BitVec 3) : (s.setTail a n).v2 = s.v2 := rfl
@[simp] theorem State.setTail_v3 (s : State) (a : Word) (n : BitVec 3) : (s.setTail a n).v3 = s.v3 := rfl
@[simp] theorem State.setTail_tail (s : State) (a : Word) (n : BitVec 3) : (s.setTail a n).tail = a := rfl
@[simp] theorem State.setTail_tcnt (s : State) (a : Word) (n : BitVec 3) : (s.setTail a n).tcnt = n := rfl
@[simp] theorem State.setTail_total (s : State) (a : Word) (n : BitVec 3) : (s.setTail a n).total = s.total := rfl
@[simp] theorem State.setTail_phase (s : State) (a : Word) (n : BitVec 3) : (s.setTail a n).phase = s.phase := rfl
@[simp] theorem State.setTail_fault (s : State) (a : Word) (n : BitVec 3) : (s.setTail a n).fault = s.fault := rfl
@[simp] theorem State.setTail_fcause (s : State) (a : Word) (n : BitVec 3) : (s.setTail a n).fcause = s.fcause := rfl
@[simp] theorem State.setTail_digest (s : State) (a : Word) (n : BitVec 3) : (s.setTail a n).digest = s.digest := rfl
@[simp] theorem State.setTail_host (s : State) (a : Word) (n : BitVec 3) : (s.setTail a n).host = s.host := rfl

@[simp] theorem State.setTotal_v0 (s : State) (n : Word) : (s.setTotal n).v0 = s.v0 := rfl
@[simp] theorem State.setTotal_v1 (s : State) (n : Word) : (s.setTotal n).v1 = s.v1 := rfl
@[simp] theorem State.setTotal_v2 (s : State) (n : Word) : (s.setTotal n).v2 = s.v2 := rfl
@[simp] theorem State.setTotal_v3 (s : State) (n : Word) : (s.setTotal n).v3 = s.v3 := rfl
@[simp] theorem State.setTotal_tail (s : State) (n : Word) : (s.setTotal n).tail = s.tail := rfl
@[simp] theorem State.setTotal_tcnt (s : State) (n : Word) : (s.setTotal n).tcnt = s.tcnt := rfl
@[simp] theorem State.setTotal_total (s : State) (n : Word) : (s.setTotal n).total = n := rfl
@[simp] theorem State.setTotal_phase (s : State) (n : Word) : (s.setTotal n).phase = s.phase := rfl
@[simp] theorem State.setTotal_fault (s : State) (n : Word) : (s.setTotal n).fault = s.fault := rfl
@[simp] theorem State.setTotal_fcause (s : State) (n : Word) : (s.setTotal n).fcause = s.fcause := rfl
@[simp] theorem State.setTotal_digest (s : State) (n : Word) : (s.setTotal n).digest = s.digest := rfl
@[simp] theorem State.setTotal_host (s : State) (n : Word) : (s.setTotal n).host = s.host := rfl

@[simp] theorem State.setPhase_v0 (s : State) (p : Phase) : (s.setPhase p).v0 = s.v0 := rfl
@[simp] theorem State.setPhase_v1 (s : State) (p : Phase) : (s.setPhase p).v1 = s.v1 := rfl
@[simp] theorem State.setPhase_v2 (s : State) (p : Phase) : (s.setPhase p).v2 = s.v2 := rfl
@[simp] theorem State.setPhase_v3 (s : State) (p : Phase) : (s.setPhase p).v3 = s.v3 := rfl
@[simp] theorem State.setPhase_tail (s : State) (p : Phase) : (s.setPhase p).tail = s.tail := rfl
@[simp] theorem State.setPhase_tcnt (s : State) (p : Phase) : (s.setPhase p).tcnt = s.tcnt := rfl
@[simp] theorem State.setPhase_total (s : State) (p : Phase) : (s.setPhase p).total = s.total := rfl
@[simp] theorem State.setPhase_phase (s : State) (p : Phase) : (s.setPhase p).phase = p := rfl
@[simp] theorem State.setPhase_fault (s : State) (p : Phase) : (s.setPhase p).fault = s.fault := rfl
@[simp] theorem State.setPhase_fcause (s : State) (p : Phase) : (s.setPhase p).fcause = s.fcause := rfl
@[simp] theorem State.setPhase_digest (s : State) (p : Phase) : (s.setPhase p).digest = s.digest := rfl
@[simp] theorem State.setPhase_host (s : State) (p : Phase) : (s.setPhase p).host = s.host := rfl

@[simp] theorem State.setDigest_v0 (s : State) (d : Word) : (s.setDigest d).v0 = s.v0 := rfl
@[simp] theorem State.setDigest_v1 (s : State) (d : Word) : (s.setDigest d).v1 = s.v1 := rfl
@[simp] theorem State.setDigest_v2 (s : State) (d : Word) : (s.setDigest d).v2 = s.v2 := rfl
@[simp] theorem State.setDigest_v3 (s : State) (d : Word) : (s.setDigest d).v3 = s.v3 := rfl
@[simp] theorem State.setDigest_tail (s : State) (d : Word) : (s.setDigest d).tail = s.tail := rfl
@[simp] theorem State.setDigest_tcnt (s : State) (d : Word) : (s.setDigest d).tcnt = s.tcnt := rfl
@[simp] theorem State.setDigest_total (s : State) (d : Word) : (s.setDigest d).total = s.total := rfl
@[simp] theorem State.setDigest_phase (s : State) (d : Word) : (s.setDigest d).phase = s.phase := rfl
@[simp] theorem State.setDigest_fault (s : State) (d : Word) : (s.setDigest d).fault = s.fault := rfl
@[simp] theorem State.setDigest_fcause (s : State) (d : Word) : (s.setDigest d).fcause = s.fcause := rfl
@[simp] theorem State.setDigest_digest (s : State) (d : Word) : (s.setDigest d).digest = d := rfl
@[simp] theorem State.setDigest_host (s : State) (d : Word) : (s.setDigest d).host = s.host := rfl

@[simp] theorem State.setHost_v0 (s : State) (h : List HostMove) : (s.setHost h).v0 = s.v0 := rfl
@[simp] theorem State.setHost_v1 (s : State) (h : List HostMove) : (s.setHost h).v1 = s.v1 := rfl
@[simp] theorem State.setHost_v2 (s : State) (h : List HostMove) : (s.setHost h).v2 = s.v2 := rfl
@[simp] theorem State.setHost_v3 (s : State) (h : List HostMove) : (s.setHost h).v3 = s.v3 := rfl
@[simp] theorem State.setHost_tail (s : State) (h : List HostMove) : (s.setHost h).tail = s.tail := rfl
@[simp] theorem State.setHost_tcnt (s : State) (h : List HostMove) : (s.setHost h).tcnt = s.tcnt := rfl
@[simp] theorem State.setHost_total (s : State) (h : List HostMove) : (s.setHost h).total = s.total := rfl
@[simp] theorem State.setHost_phase (s : State) (h : List HostMove) : (s.setHost h).phase = s.phase := rfl
@[simp] theorem State.setHost_fault (s : State) (h : List HostMove) : (s.setHost h).fault = s.fault := rfl
@[simp] theorem State.setHost_fcause (s : State) (h : List HostMove) : (s.setHost h).fcause = s.fcause := rfl
@[simp] theorem State.setHost_digest (s : State) (h : List HostMove) : (s.setHost h).digest = s.digest := rfl
@[simp] theorem State.setHost_host (s : State) (h : List HostMove) : (s.setHost h).host = h := rfl

@[simp] theorem State.raiseFault_v0 (s : State) (c : Cause) : (s.raiseFault c).v0 = s.v0 := rfl
@[simp] theorem State.raiseFault_v1 (s : State) (c : Cause) : (s.raiseFault c).v1 = s.v1 := rfl
@[simp] theorem State.raiseFault_v2 (s : State) (c : Cause) : (s.raiseFault c).v2 = s.v2 := rfl
@[simp] theorem State.raiseFault_v3 (s : State) (c : Cause) : (s.raiseFault c).v3 = s.v3 := rfl
@[simp] theorem State.raiseFault_tail (s : State) (c : Cause) : (s.raiseFault c).tail = s.tail := rfl
@[simp] theorem State.raiseFault_tcnt (s : State) (c : Cause) : (s.raiseFault c).tcnt = s.tcnt := rfl
@[simp] theorem State.raiseFault_total (s : State) (c : Cause) : (s.raiseFault c).total = s.total := rfl
@[simp] theorem State.raiseFault_phase (s : State) (c : Cause) : (s.raiseFault c).phase = s.phase := rfl
@[simp] theorem State.raiseFault_fault (s : State) (c : Cause) : (s.raiseFault c).fault = true := rfl
@[simp] theorem State.raiseFault_fcause (s : State) (c : Cause) : (s.raiseFault c).fcause = c.code := rfl
@[simp] theorem State.raiseFault_digest (s : State) (c : Cause) : (s.raiseFault c).digest = s.digest := rfl
@[simp] theorem State.raiseFault_host (s : State) (c : Cause) : (s.raiseFault c).host = s.host := rfl

@[simp] theorem State.applyReset_v0 (s : State) : (s.applyReset).v0 = 0 := rfl
@[simp] theorem State.applyReset_v1 (s : State) : (s.applyReset).v1 = 0 := rfl
@[simp] theorem State.applyReset_v2 (s : State) : (s.applyReset).v2 = 0 := rfl
@[simp] theorem State.applyReset_v3 (s : State) : (s.applyReset).v3 = 0 := rfl
@[simp] theorem State.applyReset_tail (s : State) : (s.applyReset).tail = 0 := rfl
@[simp] theorem State.applyReset_tcnt (s : State) : (s.applyReset).tcnt = 0 := rfl
@[simp] theorem State.applyReset_total (s : State) : (s.applyReset).total = 0 := rfl
@[simp] theorem State.applyReset_phase (s : State) : (s.applyReset).phase = .empty := rfl
@[simp] theorem State.applyReset_fault (s : State) : (s.applyReset).fault = false := rfl
@[simp] theorem State.applyReset_fcause (s : State) : (s.applyReset).fcause = 0 := rfl
@[simp] theorem State.applyReset_digest (s : State) : (s.applyReset).digest = 0 := rfl
@[simp] theorem State.applyReset_host (s : State) : (s.applyReset).host = s.host := rfl

@[simp] theorem State.setMix_mix (s : State) (m : Mix) : (s.setMix m).mix = m := rfl
@[simp] theorem State.setTail_mix (s : State) (a : Word) (n : BitVec 3) : (s.setTail a n).mix = s.mix := rfl
@[simp] theorem State.setTotal_mix (s : State) (n : Word) : (s.setTotal n).mix = s.mix := rfl
@[simp] theorem State.setPhase_mix (s : State) (p : Phase) : (s.setPhase p).mix = s.mix := rfl
@[simp] theorem State.setDigest_mix (s : State) (d : Word) : (s.setDigest d).mix = s.mix := rfl
@[simp] theorem State.setHost_mix (s : State) (h : List HostMove) : (s.setHost h).mix = s.mix := rfl
@[simp] theorem State.raiseFault_mix (s : State) (c : Cause) : (s.raiseFault c).mix = s.mix := rfl
@[simp] theorem State.mix_v0 (s : State) : s.mix.v0 = s.v0 := rfl
@[simp] theorem State.mix_v1 (s : State) : s.mix.v1 = s.v1 := rfl
@[simp] theorem State.mix_v2 (s : State) : s.mix.v2 = s.v2 := rfl
@[simp] theorem State.mix_v3 (s : State) : s.mix.v3 = s.v3 := rfl
@[simp] theorem State.setMix_self (s : State) : s.setMix s.mix = s := rfl

/-- Two states are equal when their registers, the mixing registers taken together, and their host moves are. -/
theorem State.ext_mix {s t : State} (mix : s.mix = t.mix) (tail : s.tail = t.tail) (tcnt : s.tcnt = t.tcnt)
    (total : s.total = t.total) (phase : s.phase = t.phase) (fault : s.fault = t.fault)
    (fcause : s.fcause = t.fcause) (digest : s.digest = t.digest) (host : s.host = t.host) : s = t := by
  cases s
  cases t
  simp only [State.mix, Mix.mk.injEq] at mix
  simp_all

end Sys2Proof.Machine
end

