-- ==== Sys2Proof/Laws/Ops.lean ====
section
/-!
SUPPORT. One lemma per shared operation that says all it can do, and one per command that says the state it leaves, so
that no proof unfolds a meaning twice.
-/

namespace Sys2Proof.Machine

theorem unlessFaulted_faulted {s : State} (f : State → State) (h : s.fault = true) :
    unlessFaulted s f = .next s := by
  simp [unlessFaulted, h]

theorem unlessFaulted_sound {s : State} (f : State → State) (h : s.fault = false) :
    unlessFaulted s f = .next (f s) := by
  simp [unlessFaulted, h]

theorem whenActive_empty {s : State} (c : Cause) (f : State → State) (h : s.phase = .empty) :
    whenActive s c f = s.raiseFault .notInitialised := by
  simp [whenActive, h]

theorem whenActive_active {s : State} (c : Cause) (f : State → State) (h : s.phase = .active) :
    whenActive s c f = f s := by
  simp [whenActive, h]

theorem whenActive_done {s : State} (c : Cause) (f : State → State) (h : s.phase = .done) :
    whenActive s c f = s.raiseFault c := by
  simp [whenActive, h]

/-- The lifecycle check ends in one of three ways. -/
theorem whenActive_cases (s : State) (c : Cause) (f : State → State) :
    (s.phase = .empty ∧ whenActive s c f = s.raiseFault .notInitialised) ∨
    (s.phase = .active ∧ whenActive s c f = f s) ∨
    (s.phase = .done ∧ whenActive s c f = s.raiseFault c) := by
  cases h : s.phase <;> simp [whenActive, h]

/-- The machine after a command: `exec` always answers it. -/
theorem exec_eq_next (i : Instr) (s : State) : exec i s = .next (runInstr s i) := by
  cases i <;> rfl

theorem runInstr_faulted {s : State} (i : Instr) (h : s.fault = true) : runInstr s i = s := by
  cases i <;>
    simp [runInstr, exec, execInit, execAbsorb, execFinal, execIllegal, unlessFaulted_faulted _ h, answerState]

theorem runInstr_init {s : State} (k0 k1 : Word) (h : s.fault = false) :
    runInstr s (.init k0 k1) = s.construct k0 k1 := by
  simp [runInstr, exec, execInit, unlessFaulted_sound _ h, answerState]

theorem runInstr_absorb {s : State} {len : BitVec 4} (d0 : Word) (h : s.fault = false) (hl : len.toNat ≤ 8) :
    runInstr s (.absorb len d0) = whenActive s .absorbAfterFinal fun s => s.absorbBeat len d0 := by
  simp [runInstr, exec, execAbsorb, unlessFaulted_sound _ h, answerState, hl]

theorem runInstr_absorb_tooLong {s : State} {len : BitVec 4} (d0 : Word) (h : s.fault = false)
    (hl : ¬ len.toNat ≤ 8) : runInstr s (.absorb len d0) = s.raiseFault .illegalCmd := by
  simp [runInstr, exec, execAbsorb, unlessFaulted_sound _ h, answerState, hl]

theorem runInstr_final {s : State} (h : s.fault = false) :
    runInstr s .final = whenActive s .finalAfterFinal State.finalize := by
  simp [runInstr, exec, execFinal, unlessFaulted_sound _ h, answerState]

theorem runInstr_illegal {s : State} (op len : BitVec 4) (h : s.fault = false) :
    runInstr s (.illegal op len) = s.raiseFault .illegalCmd := by
  simp [runInstr, exec, execIllegal, unlessFaulted_sound _ h, answerState]

/-- Everything a command can do to a state with `fault = 0`: raise one of four causes and write nothing else, construct
an engine, ingest a beat, or finish the digest. -/
theorem runInstr_cases (s : State) (i : Instr) :
    (s.fault = true ∧ runInstr s i = s) ∨
    (s.fault = false ∧ ∃ c, (c = .illegalCmd ∨ c = .notInitialised ∨ c = .absorbAfterFinal ∨ c = .finalAfterFinal) ∧
      runInstr s i = s.raiseFault c) ∨
    (s.fault = false ∧ ∃ k0 k1, i = .init k0 k1 ∧ runInstr s i = s.construct k0 k1) ∨
    (s.fault = false ∧ s.phase = .active ∧ ∃ len d0, i = .absorb len d0 ∧ len.toNat ≤ 8 ∧
      runInstr s i = s.absorbBeat len d0) ∨
    (s.fault = false ∧ s.phase = .active ∧ i = .final ∧ runInstr s i = s.finalize) := by
  cases hf : s.fault with
  | true => exact .inl ⟨rfl, runInstr_faulted i hf⟩
  | false =>
    refine .inr ?_
    cases i with
    | init k0 k1 => exact .inr (.inl ⟨rfl, k0, k1, rfl, runInstr_init k0 k1 hf⟩)
    | illegal op len => exact .inl ⟨rfl, _, .inl rfl, runInstr_illegal op len hf⟩
    | absorb len d0 =>
      by_cases hl : len.toNat ≤ 8
      · rw [runInstr_absorb d0 hf hl]
        obtain ⟨-, e⟩ | ⟨hp, e⟩ | ⟨-, e⟩ := whenActive_cases s .absorbAfterFinal fun s => s.absorbBeat len d0
        · exact .inl ⟨rfl, _, .inr (.inl rfl), e⟩
        · exact .inr (.inr (.inl ⟨rfl, hp, len, d0, rfl, hl, e⟩))
        · exact .inl ⟨rfl, _, .inr (.inr (.inl rfl)), e⟩
      · exact .inl ⟨rfl, _, .inl rfl, runInstr_absorb_tooLong d0 hf hl⟩
    | final =>
      rw [runInstr_final hf]
      obtain ⟨-, e⟩ | ⟨hp, e⟩ | ⟨-, e⟩ := whenActive_cases s .finalAfterFinal State.finalize
      · exact .inl ⟨rfl, _, .inr (.inl rfl), e⟩
      · exact .inr (.inr (.inr ⟨rfl, hp, rfl, e⟩))
      · exact .inl ⟨rfl, _, .inr (.inr (.inr rfl)), e⟩

/-- No command touches the host's moves. -/
@[simp] theorem runInstr_host (s : State) (i : Instr) : (runInstr s i).host = s.host := by
  obtain ⟨-, e⟩ | ⟨-, c, -, e⟩ | ⟨-, k0, k1, -, e⟩ | ⟨-, -, len, d0, -, -, e⟩ | ⟨-, -, -, e⟩ := runInstr_cases s i <;>
    rw [e]
  · rfl
  · rfl
  · simp only [State.absorbBeat]
    split <;> rfl
  · rfl

/-- Everything a step can do: idle, reset, or one command run to its end. -/
theorem step_cases (s : State) :
    (s.host = [] ∧ step s = .next s) ∨
    (∃ rest, s.host = .reset :: rest ∧ step s = .next (s.setHost rest).applyReset) ∨
    (∃ w rest, s.host = .command w :: rest ∧ step s = .next (runWord (s.setHost rest) w)) := by
  match h : s.host with
  | [] => exact .inl ⟨rfl, by simp [step, State.takeMove, h]⟩
  | .reset :: rest => exact .inr (.inl ⟨rest, rfl, by simp [step, State.takeMove, h]⟩)
  | .command w :: rest =>
    exact .inr (.inr ⟨w, rest, rfl, by simp [step, State.takeMove, h, runWord, exec_eq_next]⟩)

end Sys2Proof.Machine
end

