-- ==== Sys2Proof/Laws/Run.lean ====
section
/-!
SUPPORT. Runs and the host's moves: no command and no reset reads or writes the moves still to come.
-/

namespace Sys2Proof.Machine

theorem runInstr_setHost (s : State) (i : Instr) (h : List HostMove) :
    runInstr (s.setHost h) i = (runInstr s i).setHost h := by
  cases hf : s.fault with
  | true => rw [runInstr_faulted i hf, runInstr_faulted i (by simpa using hf)]
  | false =>
    have hf' : (s.setHost h).fault = false := by simpa using hf
    cases i with
    | init k0 k1 => rw [runInstr_init _ _ hf, runInstr_init _ _ hf']; rfl
    | illegal op len => rw [runInstr_illegal _ _ hf, runInstr_illegal _ _ hf']; rfl
    | final =>
      rw [runInstr_final hf, runInstr_final hf']
      simp only [whenActive, State.setHost_phase]
      cases s.phase <;> rfl
    | absorb len d0 =>
      by_cases hl : len.toNat ≤ 8
      · rw [runInstr_absorb _ hf hl, runInstr_absorb _ hf' hl]
        simp only [whenActive, State.setHost_phase]
        cases s.phase
        · rfl
        · have hw' : wordCompletes (s.setHost h).tcnt len = wordCompletes s.tcnt len := rfl
          unfold State.absorbBeat
          rw [hw']
          cases wordCompletes s.tcnt len <;> rfl
        · rfl
      · rw [runInstr_absorb_tooLong _ hf hl, runInstr_absorb_tooLong _ hf' hl]; rfl

theorem runMove_setHost (s m h) : runMove (s.setHost h) m = (runMove s m).setHost h := by
  cases m with
  | reset => rfl
  | command w => exact runInstr_setHost s _ h

@[simp] theorem runMove_host (s m) : (runMove s m).host = s.host := by
  cases m with
  | reset => rfl
  | command w => exact runInstr_host s _

@[simp] theorem runMoves_host (ms) : ∀ s, (runMoves s ms).host = s.host := by
  induction ms with
  | nil => intro s; rfl
  | cons m ms ih => intro s; exact (ih _).trans (runMove_host s m)

theorem runMoves_setHost (ms) : ∀ s h, runMoves (s.setHost h) ms = (runMoves s ms).setHost h := by
  induction ms with
  | nil => intro s h; rfl
  | cons m ms ih => intro s h; simp only [runMoves, List.foldl_cons] at ih ⊢; rw [runMove_setHost, ih]

/-- A step with a move pending makes that move. -/
theorem step_move (s : State) (m rest) (h : s.host = m :: rest) : step s = .next ((runMove s m).setHost rest) := by
  cases m with
  | reset => simp [step, State.takeMove, h]; rfl
  | command w =>
    simp only [step, State.takeMove, h, exec_eq_next]
    rw [runInstr_setHost]; rfl

/-- The counted rounds are the rounds. -/
@[simp] theorem CountedMix.run_mix (n : Nat) (m : CountedMix) : (CountedMix.run n m).mix = sipRounds n m.mix := by
  induction n generalizing m with
  | zero => rfl
  | succ n ih => exact ih _

/-- And there are as many as were asked for. -/
@[simp] theorem CountedMix.run_rounds (n : Nat) (m : CountedMix) : (CountedMix.run n m).rounds = m.rounds + n := by
  induction n generalizing m with
  | zero => rfl
  | succ n ih => rw [CountedMix.run, ih, Nat.add_assoc, Nat.add_comm 1]

@[simp] theorem CountedMix.compress_mix (w : Word) (m : CountedMix) :
    (CountedMix.compress w m).mix = compressWord w m.mix := by
  simp [CountedMix.compress, compressWord]

@[simp] theorem CountedMix.compress_rounds (w : Word) (m : CountedMix) :
    (CountedMix.compress w m).rounds = m.rounds + cRounds := by
  simp [CountedMix.compress]

@[simp] theorem CountedMix.finish_mix (m : CountedMix) : m.finish.mix = finalRounds m.mix := by
  simp [CountedMix.finish, finalRounds]

@[simp] theorem CountedMix.finish_rounds (m : CountedMix) : m.finish.rounds = m.rounds + dRounds := by
  simp [CountedMix.finish]

/-- A faulted core runs no command (R167). -/
theorem runInstrs_faulted (is : List Instr) : ∀ s : State, s.fault = true → runInstrs s is = s := by
  induction is with
  | nil => intro s _; rfl
  | cons i is ih => intro s h; show runInstrs (runInstr s i) is = s; rw [runInstr_faulted i h]; exact ih s h

end Sys2Proof.Machine
end

