-- ==== Sys2Proof/Laws/Handshake.lean ====
section
/-!
SUPPORT. Everything a clock cycle can do.
-/

namespace Sys2Proof.Machine

/-- A cycle applies reset, or refuses a changed offer, or goes on with the command in progress, or is ready. -/
theorem cycle_cases (c : Config) (pins : Pins) (p : PortState) :
    (resetApplied c pins = true ∧ cycle c pins p = .next (resetCycle p pins)) ∨
    (resetApplied c pins = false ∧ breaksOffer p pins = true ∧ cycle c pins p = .refused .offerChanged) ∨
    (resetApplied c pins = false ∧ breaksOffer p pins = false ∧
      ((∃ f, p.busy = some f ∧ cycle c pins p = .next (busyCycle f p pins)) ∨
        (p.busy = none ∧ cycle c pins p = .next (readyCycle c p pins)))) := by
  cases hr : resetApplied c pins with
  | true => exact .inl ⟨rfl, by simp [cycle, hr]⟩
  | false =>
    cases hb : breaksOffer p pins with
    | true => exact .inr (.inl ⟨rfl, rfl, by simp [cycle, hr, hb]⟩)
    | false =>
      refine .inr (.inr ⟨rfl, rfl, ?_⟩)
      cases hf : p.busy with
      | some f => exact .inl ⟨f, rfl, by simp [cycle, hr, hb, hf]⟩
      | none => exact .inr ⟨rfl, by simp [cycle, hr, hb, hf]⟩

/-- A kept offer is kept in the first cycle, and what is offered there in the cycles after it. -/
theorem offersKept_cons (p : PortState) (pins : Pins) (rest : List Pins) :
    offersKept p.offer (pins :: rest) = true ↔
      breaksOffer p pins = false ∧ offersKept pins.offered rest = true := by
  cases h : p.offer <;> simp [offersKept, breaksOffer, h]

/-- Ready means that no command is in progress (R198). -/
theorem cmdReady_iff (p : PortState) : p.cmdReady = true ↔ p.busy = none := by
  simp [PortState.cmdReady]

end Sys2Proof.Machine
end

