-- ==== Sys2Proof/Laws/Ingestion.lean ====
section
/-!
SUPPORT. What one beat does, and one byte of it: the lemmas under the statements on ingestion (spec/42_ingestion.md).
-/

namespace Sys2Proof.Machine

/-- A legal beat in `phase = ACTIVE`, `fault = 0`. -/
theorem runInstr_absorb_active {s : State} {len : BitVec 4} (d0 : Word) (hl : len.toNat ≤ 8)
    (hf : s.fault = false) (hp : s.phase = .active) :
    runInstr s (.absorb len d0) = s.absorbBeat len d0 := by
  rw [runInstr_absorb d0 hf hl, whenActive_active _ _ hp]

/-- A beat that completes no word. -/
theorem absorbBeat_short {s : State} {len : BitVec 4} (d0 : Word) (h : s.tcnt.toNat + len.toNat < 8) :
    s.absorbBeat len d0 =
      (s.setTail ((accumulator s.tail s.tcnt (beatValue len d0)).extractLsb' 0 64)
        (BitVec.ofNat 3 (s.tcnt.toNat + len.toNat))).setTotal (s.total + len.setWidth 64) := by
  have : wordCompletes s.tcnt len = false := by simp [wordCompletes]; omega
  simp [State.absorbBeat, this]

/-- A beat that completes the word. -/
theorem absorbBeat_long {s : State} {len : BitVec 4} (d0 : Word) (h : 8 ≤ s.tcnt.toNat + len.toNat) :
    s.absorbBeat len d0 =
      ((s.setMix (compressWord ((accumulator s.tail s.tcnt (beatValue len d0)).extractLsb' 0 64) s.mix)).setTail
        ((accumulator s.tail s.tcnt (beatValue len d0)).extractLsb' 64 64)
        (BitVec.ofNat 3 (s.tcnt.toNat + len.toNat - 8))).setTotal (s.total + len.setWidth 64) := by
  have : wordCompletes s.tcnt len = true := by simp [wordCompletes]; omega
  simp [State.absorbBeat, this]

/-- The bytes counted by a beat. -/
theorem absorbBeat_total (s : State) (len : BitVec 4) (d0 : Word) :
    (s.absorbBeat len d0).total = s.total + len.setWidth 64 := by
  unfold State.absorbBeat; simp only; split <;> rfl

/-- The pending bytes after a beat. -/
theorem absorbBeat_tcnt (s : State) (len : BitVec 4) (d0 : Word) :
    (s.absorbBeat len d0).tcnt.toNat = (s.tcnt.toNat + len.toNat) % 8 := by
  have ht := s.tcnt.isLt
  unfold State.absorbBeat; simp only; split
  · rename_i h; simp [wordCompletes] at h; simp; omega
  · rename_i h; simp [wordCompletes] at h; simp

/-- The registers a beat leaves alone. -/
theorem absorbBeat_rest (s : State) (len : BitVec 4) (d0 : Word) :
    (s.absorbBeat len d0).fault = s.fault ∧ (s.absorbBeat len d0).fcause = s.fcause ∧
    (s.absorbBeat len d0).phase = s.phase ∧ (s.absorbBeat len d0).digest = s.digest := by
  unfold State.absorbBeat; simp only; split <;> exact ⟨rfl, rfl, rfl, rfl⟩

/-- A byte that completes no word. -/
theorem addByte_of_lt {s : State} (h : s.tcnt.toNat < 7) (b : Byte) :
    s.addByte b = (s.setTail (s.tail ||| (b.setWidth 64 <<< (8 * s.tcnt.toNat))) (s.tcnt + 1#3)).setTotal
        (s.total + 1#64) := by
  have c : ¬ s.tcnt = 7#3 := by
    intro hh
    rw [hh] at h
    simp at h
  simp [State.addByte, c]

/-- The byte that completes the word. -/
theorem addByte_of_eq {s : State} (h : s.tcnt.toNat = 7) (b : Byte) :
    s.addByte b = ((s.setMix (compressWord (s.tail ||| (b.setWidth 64 <<< 56)) s.mix)).setTail 0#64 0#3).setTotal
        (s.total + 1#64) := by
  have c : s.tcnt = 7#3 := BitVec.eq_of_toNat_eq (by simpa using h)
  simp [State.addByte, c]

/-- The registers a byte leaves alone. -/
theorem addByte_rest (s : State) (b : Byte) :
    (s.addByte b).fault = s.fault ∧ (s.addByte b).phase = s.phase ∧ (s.addByte b).fcause = s.fcause ∧
    (s.addByte b).digest = s.digest ∧ (s.addByte b).host = s.host := by
  unfold State.addByte; simp only; split <;> exact ⟨rfl, rfl, rfl, rfl, rfl⟩

theorem tcnt_succ {s : State} (h : s.tcnt.toNat < 7) : (s.tcnt + 1#3).toNat = s.tcnt.toNat + 1 := by
  rw [BitVec.toNat_add]; simp; omega

/-- A byte keeps the tail clean. -/
theorem addByte_clean {s : State} (h : TailClean s) (b : Byte) : TailClean (s.addByte b) := by
  have ht := s.tcnt.isLt
  obtain c | c : s.tcnt.toNat < 7 ∨ s.tcnt.toNat = 7 := by omega
  · rw [addByte_of_lt c]
    apply tailClean_of_bits
    intro i hi hi2
    simp only [State.setTotal_tcnt, State.setTail_tcnt, tcnt_succ c, State.setTotal_tail, State.setTail_tail] at hi ⊢
    have c3 := tailClean_bit h (i := i) (by omega)
    have c4 : 8 ≤ i - 8 * s.tcnt.toNat := by omega
    simp [c3, BitVec.getLsbD_of_ge _ _ c4]
  · rw [addByte_of_eq c]
    simp [TailClean]

/-- The accumulator holds no bit above the beat's last byte. -/
theorem accumulator_high {s : State} (h : TailClean s) (d0 : Word) {n i : Nat} (hn : n ≤ 8)
    (hi : 8 * (s.tcnt.toNat + n) ≤ i) :
    (accumulator s.tail s.tcnt (beatValue (BitVec.ofNat 4 n) d0)).getLsbD i = false := by
  have h2 : n % 16 = n := by omega
  have ht := tailClean_bit h (i := i) (by omega)
  have c : ¬ (i - 8 * s.tcnt.toNat < 8 * n) := by omega
  simp [accumulator, beatValue, lowmask_bit, ht, h2, c]

/-- The empty beat changes nothing (R58). -/
theorem absorbBeat_zero (s : State) (d0 : Word) : s.absorbBeat 0 d0 = s := by
  have hm : beatValue 0 d0 = 0 := by simp [beatValue, lowmask]
  have hacc : (accumulator s.tail s.tcnt 0).extractLsb' 0 64 = s.tail := by
    ext i hi
    have : i < 128 := by omega
    simp [accumulator, this, BitVec.getLsbD_eq_getElem hi]
  have ht := s.tcnt.isLt
  have hc : wordCompletes s.tcnt 0 = false := by simp [wordCompletes]; omega
  simp only [State.absorbBeat, hm, hc, hacc]
  simp [State.setTail, State.setTotal]

/-- A beat one byte longer does what that byte does after it. -/
theorem absorbBeat_succ {s : State} (h : TailClean s) (d0 : Word) {n : Nat} (hn : n < 8) :
    s.absorbBeat (BitVec.ofNat 4 (n + 1)) d0 = (s.absorbBeat (BitVec.ofNat 4 n) d0).addByte (byteOf d0 n) := by
  have h1 : (n + 1) % 16 = n + 1 := by omega
  have h2 : n % 16 = n := by omega
  have ht := s.tcnt.isLt
  have hz : ∀ i, 8 * (s.tcnt.toNat + n) ≤ i → _ := fun i hi => accumulator_high h d0 (by omega : n ≤ 8) hi
  have hs := accumulator_succ s.tail s.tcnt d0 n hn
  have hw1 : BitVec.setWidth 64 (BitVec.ofNat 4 (n+1)) = BitVec.setWidth 64 (BitVec.ofNat 4 n) + 1 := by
    apply BitVec.eq_of_toNat_eq
    simp; omega
  generalize ha : accumulator s.tail s.tcnt (beatValue (BitVec.ofNat 4 n) d0) = a at *
  generalize ha' : accumulator s.tail s.tcnt (beatValue (BitVec.ofNat 4 (n+1)) d0) = a' at *
  have hb : ∀ i, 8 ≤ i → (byteOf d0 n).getLsbD i = false := fun i hi => BitVec.getLsbD_of_ge _ _ hi
  have hlo : a'.extractLsb' 0 64 = a.extractLsb' 0 64 ||| ((byteOf d0 n).setWidth 64 <<< (8 * (s.tcnt.toNat + n))) := by
    rw [hs]
    ext i hi
    have : i < 128 := by omega
    simp [this]
  have hhi : 8 ≤ s.tcnt.toNat + n → a'.extractLsb' 64 64 = a.extractLsb' 64 64 |||
      ((byteOf d0 n).setWidth 64 <<< (8 * (s.tcnt.toNat + n - 8))) := by
    intro h8
    rw [hs]
    ext i hi
    have c1 : 64 + i < 128 := by omega
    by_cases c2 : i < 8 * (s.tcnt.toNat + n - 8)
    · have c3 : 64 + i < 8 * (s.tcnt.toNat + n) := by omega
      simp [c1, c2, c3]
    · have c3 : ¬ 64 + i < 8 * (s.tcnt.toNat + n) := by omega
      have c4 : 64 + i - 8 * (s.tcnt.toNat + n) = i - 8 * (s.tcnt.toNat + n - 8) := by omega
      simp [c1, c2, c3, c4]
  obtain hc | hc | hc := Nat.lt_trichotomy (s.tcnt.toNat + n) 7
  · have w1 : wordCompletes s.tcnt (BitVec.ofNat 4 (n+1)) = false := by simp [wordCompletes, h1]; omega
    have w0 : wordCompletes s.tcnt (BitVec.ofNat 4 n) = false := by simp [wordCompletes, h2]; omega
    have e0 : s.tcnt.toNat + n < 8 := by omega
    have c : BitVec.ofNat 3 (s.tcnt.toNat + n) ≠ 7 := by
      intro hh
      have := congrArg BitVec.toNat hh
      simp at this
      omega
    have d : BitVec.ofNat 3 (s.tcnt.toNat + (n + 1)) = BitVec.ofNat 3 (s.tcnt.toNat + n) + 1 := by
      apply BitVec.eq_of_toNat_eq; simp; omega
    have c' : ¬ (BitVec.ofNat 3 (s.tcnt.toNat + n) = 7#3) := c
    simp [State.absorbBeat, State.addByte, ha, ha', w0, w1, h1, h2, hlo, hw1, c', d, Nat.mod_eq_of_lt e0,
        BitVec.add_assoc,
      State.setTail, State.setTotal]
    
  · have w1 : wordCompletes s.tcnt (BitVec.ofNat 4 (n+1)) = true := by simp [wordCompletes, h1]; omega
    have w0 : wordCompletes s.tcnt (BitVec.ofNat 4 n) = false := by simp [wordCompletes, h2]; omega
    have hh : a'.extractLsb' 64 64 = 0 := by
      rw [hs]
      ext i hi
      have c1 : 64 + i < 128 := by omega
      have c3 : ¬ 64 + i < 8 * (s.tcnt.toNat + n) := by omega
      have c4 : 8 ≤ 64 + i - 8 * (s.tcnt.toNat + n) := by omega
      have c5 := hz (64 + i) (by omega)
      rw [BitVec.getLsbD_eq_getElem c1] at c5
      simp [c1, c3, c5, hb _ c4]
    have c2 : s.tcnt.toNat + (n + 1) - 8 = 0 := by omega
    simp [State.absorbBeat, State.addByte, ha, ha', w0, w1, h1, h2, hlo, hw1, hh, hc, c2, BitVec.add_assoc,
      State.setTail, State.setTotal, State.setMix, State.mix]
  · have w1 : wordCompletes s.tcnt (BitVec.ofNat 4 (n+1)) = true := by simp [wordCompletes, h1]; omega
    have w0 : wordCompletes s.tcnt (BitVec.ofNat 4 n) = true := by simp [wordCompletes, h2]; omega
    have hl : a'.extractLsb' 0 64 = a.extractLsb' 0 64 := by
      rw [hs]
      ext i hi
      have c1 : i < 128 := by omega
      have c3 : i < 8 * (s.tcnt.toNat + n) := by omega
      simp [c1, c3]
    have hh := hhi (by omega)
    have c : ¬ (BitVec.ofNat 3 (s.tcnt.toNat + n - 8) = 7#3) := by
      intro hh
      have := congrArg BitVec.toNat hh
      simp at this
      omega
    have d : BitVec.ofNat 3 (s.tcnt.toNat + (n + 1) - 8) = BitVec.ofNat 3 (s.tcnt.toNat + n - 8) + 1 := by
      apply BitVec.eq_of_toNat_eq; simp; omega
    have e0 : (s.tcnt.toNat + n - 8) % 8 = s.tcnt.toNat + n - 8 := by omega
    simp [State.absorbBeat, State.addByte, ha, ha', w0, w1, h1, h2, hl, hw1, hh, c, d, e0, BitVec.add_assoc,
      State.setTail, State.setTotal, State.setMix, State.mix]

/-- `add` past its checks. -/
theorem add_active {s : State} (bs) (hf : s.fault = false) (hp : s.phase = .active) : s.add bs = s.addBytes bs := by
  simp [State.add, hf, whenActive, hp]

theorem setMix_setMix (s : State) (a b : Mix) : (s.setMix a).setMix b = s.setMix b := rfl

/-- Fewer than eight bytes are left over whole. -/
theorem compressAll_short (bs : List Byte) (h : bs.length < 8) (m : Mix) : compressAll bs m = (m, bs) := by
  rw [compressAll]
  rintro b0 b1 b2 b3 b4 b5 b6 b7 rest rfl
  simp at h
  omega

/-- One whole word of `add`. -/
theorem addWords_group (s : State) (b0 b1 b2 b3 b4 b5 b6 b7 : Byte) (rest : List Byte) :
    addWords s (b0 :: b1 :: b2 :: b3 :: b4 :: b5 :: b6 :: b7 :: rest) =
      addWords (s.setMix (compressWord (packBytes [b0, b1, b2, b3, b4, b5, b6, b7]) s.mix)) rest := by
  unfold addWords
  rw [compressAll]
  simp only [State.setMix_mix, setMix_setMix]
  rfl

end Sys2Proof.Machine
end

