-- ==== Sys2Proof/Laws/PerInstr.lean ====
section
/-!
SUPPORT. The families of statements made per constructor of Instr.
-/

namespace Sys2Proof.Laws

/-- R72: the word of a command carries the command's opcode in bits 135:132. -/
def OpField.Statement (i : Instr) : Prop := opField (encode i) = i.opcode

theorem OpField.init (k0 k1 : Word) : OpField.Statement (.init k0 k1) :=
  (Machine.fields_of_toNat (Machine.packFields_toNat opInit 0 k1 k0)).1

theorem OpField.absorb (len : BitVec 4) (d0 : Word) : OpField.Statement (.absorb len d0) :=
  (Machine.fields_of_toNat (Machine.packFields_toNat opAbsorb len 0 d0)).1

theorem OpField.final : OpField.Statement .final :=
  (Machine.fields_of_toNat (Machine.packFields_toNat opFinal 0 0 0)).1

theorem OpField.illegal (op len : BitVec 4) : OpField.Statement (.illegal op len) :=
  (Machine.fields_of_toNat (Machine.packFields_toNat op len 0 0)).1

end Sys2Proof.Laws
end

