-- ==== Sys2Proof/Tests/Slice0.lean ====
section
/-!
SUPPORT. The model's own tests. Expected values are those of spec/95_test_vectors.md (V1 to V17), of the examples in the
rules, or written out by hand from the encoding. The second part shows, for each statement of
Sys2Proof/Certificates/Slice0/Obligations.lean that has hypotheses, a state and operands that meet them.
-/

namespace Sys2Proof.Tests

open Sys2Proof Sys2Proof.Machine

/-! ### WellFormed: an ill-formed term for each check -/

theorem test_wf_absorb_nine : (Instr.absorb 9 0).wf = false := by decide
theorem test_wf_absorb_fifteen : (Instr.absorb 15 0).wf = false := by decide
theorem test_wf_absorb_eight : (Instr.absorb 8 0).wf = true := by decide
theorem test_wf_illegal_init : (Instr.illegal 1 0).wf = false := by decide
theorem test_wf_illegal_absorb : (Instr.illegal 2 8).wf = false := by decide
theorem test_wf_illegal_final : (Instr.illegal 3 15).wf = false := by decide
theorem test_wf_illegal_true : (Instr.illegal 2 9).wf = true ∧ (Instr.illegal 0 0).wf = true := by decide

/-! ### Decode: words of V14, a word of every row of spec/opcode_table.json, fields and mask bits by hand -/

theorem test_decode_init :
    decode 0x100f0e0d0c0b0a09080706050403020100 = .init 0x0706050403020100 0x0f0e0d0c0b0a0908 := by decide
theorem test_decode_init_len_ignored :
    decode 0x1f00000000000000060000000000000005 = .init 0x5 0x6 := by decide
theorem test_decode_absorb_seven :
    decode 0x270000000000000000000e0d0c0b0a0908 = .absorb 7 0x000e0d0c0b0a0908 := by decide
theorem test_decode_absorb_eight_d1_ignored :
    decode 0x2800000000000012340000000000000000 = .absorb 8 0 := by decide
theorem test_decode_final_fields_ignored :
    decode 0x3500000000000000020000000000000001 = .final := by decide
theorem test_decode_illegal_zero : decode 0 = .illegal 0 0 := by decide
theorem test_decode_illegal_ones : decode 0xffffffffffffffffffffffffffffffffff = .illegal 15 15 := by decide
theorem test_decode_illegal_op_four : decode 0x4000000000000000000000000000000000 = .illegal 4 0 := by decide
theorem test_decode_illegal_op_eight : decode 0x8000000000000000000000000000000000 = .illegal 8 0 := by decide
theorem test_decode_illegal_len_nine : decode 0x2900000000000000000000000000000000 = .illegal 2 9 := by decide
theorem test_decode_illegal_len_ten : decode 0x2a00000000000000000000000000000000 = .illegal 2 10 := by decide
theorem test_decode_illegal_len_twelve : decode 0x2c00000000000000000000000000000000 = .illegal 2 12 := by decide

theorem test_encode_init :
    encode (.init 0x0706050403020100 0x0f0e0d0c0b0a0908) = 0x100f0e0d0c0b0a09080706050403020100 := by decide
theorem test_encode_absorb : encode (.absorb 1 0x7f) = 0x210000000000000000000000000000007f := by decide
theorem test_encode_final : encode .final = 0x3000000000000000000000000000000000 := by decide
theorem test_encode_illegal : encode (.illegal 2 15) = 0x2f00000000000000000000000000000000 := by decide

theorem test_table_word_init :
    decodeTableWord 136 0x1000000000000000060000000000000005 = some (.init 0x5 0x6) := by decide
theorem test_table_word_short : decodeTableWord 8 0xff = some (.illegal 0 0) := by decide
theorem test_table_word_too_long : decodeTableWord 144 0 = none := by decide

/-! ### Assembler: the examples of R79 and R80 -/

theorem test_assemble_init : assemble (.init 0x0706050403020100 0x0f0e0d0c0b0a0908) =
    some 0x100f0e0d0c0b0a09080706050403020100 := by decide
theorem test_assemble_absorb_bytes : assemble (.absorbBytes [0x00]) = some 0x2100000000000000000000000000000000 := by
  decide
theorem test_assemble_absorb_canonical :
    assemble (.absorb 3 0xffffffffff332211) = some 0x2300000000000000000000000000332211 := by decide
theorem test_assemble_absorb_nine : assemble (.absorb 9 0) = none := by decide
theorem test_text_init :
    (AsmLine.init 0x0706050403020100 0x0f0e0d0c0b0a0908).text = "INIT 0x0706050403020100, 0x0f0e0d0c0b0a0908" := by
  decide
theorem test_text_absorb_bytes : (AsmLine.absorbBytes [0x11, 0x22, 0x33]).text = "ABSORB [11 22 33]" := by decide
theorem test_expand_add_empty : (Pseudo.add []).expand = [.absorb 0 0] := by decide
theorem test_expand_add_nine : (Pseudo.add [0, 1, 2, 3, 4, 5, 6, 7, 8]).expand =
    [.absorb 8 0x0706050403020100, .absorb 1 0x8] := by decide

/-! ### The round (V5, V7, V8) -/

theorem test_rotl : rotl64 0x0123456789abcdef 13 = 0x68acf13579bde024 ∧
    rotl64 0x0123456789abcdef 21 = 0xacf13579bde02468 ∧ rotl64 0x8000000000000001 32 = 0x0000000180000000 := by decide
theorem test_sipRound : sipRound ⟨0x0123456789abcdef, 0xfedcba9876543210, 0x0f1e2d3c4b5a6978, 0x8796a5b4c3d2e1f0⟩ =
    ⟨0x33001123eeddccfd, 0x1d0b375d48a3fad5, 0x88eb2b8cff61c426, 0x177dca9a711bacff⟩ := by decide
theorem test_sipRound_v1 : sipRound ⟨0, 0x8000000000000000, 0, 0⟩ =
    ⟨0x0000000080000000, 0x8000000020011000, 0x0000100080000000, 0x0000000080000000⟩ := by decide
theorem test_compressWord : compressWord 0x0706050403020100
      ⟨0x7469686173716475, 0x6b617f6d656e6665, 0x6b7f62616d677361, 0x7b6b696e727e6c7b⟩ =
    ⟨0x4a017198de0a59e0, 0x0d52f6f62a4f59a4, 0x634cb3577b01fd3d, 0xa5224d6f55c7d9c8⟩ := by decide

/-! ### One command on a small state (V9, V10, V11, V13, V15) -/

/-- The state after `INIT 0x0, 0x0` (V9). -/
def active : State := { State.reset with
  v0 := 0x736f6d6570736575, v1 := 0x646f72616e646f6d, v2 := 0x6c7967656e657261, v3 := 0x7465646279746573,
  phase := .active }

/-- `active` with pending bytes (V10). -/
def pending (tail : Word) (tcnt : BitVec 3) (total : Word) : State :=
  { active with tail := tail, tcnt := tcnt, total := total }

/-- The mixing registers of `active` after the word `0x8877665544332211` (V10). -/
def mixed : Mix := ⟨0xbcfa6482a61164ab, 0x6d59bc8807bcfc78, 0x1b635c32a1f64901, 0xb1a752b4076e7269⟩

/-- `active` finalized, with an invented digest. -/
def finished : State := { active with phase := .done, digest := 0x1122334455667788 }

/-- A faulted core: `ABSORB` before `INIT` (P5). -/
def faulted : State := { State.reset with fault := true, fcause := 2 }

theorem test_init : runInstr State.reset (.init 0x0123456789abcdef 0xfedcba9876543210) = { State.reset with
    v0 := 0x724c2802f9d8a89a, v1 := 0x9ab3c8f918305d7d, v2 := 0x6d5a2202e7cebf8e, v3 := 0x8ab9defa0f205763,
    phase := .active } := by decide
theorem test_init_clears_the_old_engine : runInstr { finished with tail := 5, tcnt := 1, total := 9 } (.init 0 0) =
    active := by decide
theorem test_absorb_straddle : runInstr (pending 0x332211 3 3) (.absorb 8 0xbbaa998877665544) =
    (pending 0xbbaa99 3 11).setMix mixed := by decide
theorem test_absorb_wrap : runInstr (pending 0x0504030201 5 0xfffffffffffffffd) (.absorb 4 0x09080706) =
    (pending 0x9 1 1).setMix
      ⟨0x5e0a650b53da159e, 0x0cc16dbcb9870bbc, 0x05a5ecc9b1b74d48, 0xd0099a405c7d2148⟩ := by decide
theorem test_final : runInstr active .final = { active with
    v0 := 0x4aad48c25c5f9069, v1 := 0xa32eee94879e255b, v2 := 0x4af430095c732a6a, v3 := 0xbde5ddc2f4c59f8f,
    phase := .done, digest := 0x1e924b9d737700d7 } := by decide
theorem test_final_twice : runInstr finished .final = { finished with fault := true, fcause := 4 } := by decide
theorem test_illegal_before_lifecycle :
    runWord finished 0x2900000000000000000000000000000000 = { finished with fault := true, fcause := 1 } := by decide
theorem test_illegal_keeps_first_cause : runWord faulted 0x2900000000000000000000000000000000 = faulted := by decide

theorem test_step_fetches_the_word : step (State.reset.withFetchWord 136 0x1000000000000000000000000000000000) =
    .next active := rfl
theorem test_step_reset : step { faulted with host := [.reset] } = .next State.reset := rfl
theorem test_step_idle : step faulted = .next faulted := rfl

/-! ### The function computed and the native digest (V1, V2, V4, V11, P8) -/

theorem test_siphash_empty : sipHash24 0x0706050403020100 0x0f0e0d0c0b0a0908 [] = 0x726fdb47dd0e0e31 := by decide
theorem test_siphash_one : sipHash24 0x0706050403020100 0x0f0e0d0c0b0a0908 [0x00] = 0x74f839c593dc67fd := by decide
theorem test_siphash_fifteen : sipHash24 0x0706050403020100 0x0f0e0d0c0b0a0908
    [0x00, 0x01, 0x02, 0x03, 0x04, 0x05, 0x06, 0x07, 0x08, 0x09, 0x0a, 0x0b, 0x0c, 0x0d, 0x0e] =
    0xa129ca6149be45e5 := by decide
theorem test_fold : fold32 0xa129ca6149be45e5 = 0xe8978f84 ∧ fold32 0xffffffff00000000 = 0xffffffff ∧
    fold32 0x1234567812345678 = 0 := by decide
theorem test_signed : nativeSigned .w32 { finished with digest := 0x726fdb47dd0e0e31 } = -1352542858 := by decide

/-! ### The clocked port (R191, R198) -/

/-- A configuration: reset at level 1, three cycles for a beat that completes a word. -/
def config : Config := ⟨.w64, true, true, 0, 1, 3, 6, 0⟩

/-- The pins of a cycle that offers a word. -/
def offering (w : CmdWord) : Pins := ⟨false, true, w⟩

/-- The pins of a cycle that offers nothing. -/
def quiet : Pins := ⟨false, false, 0⟩

/-- The block with `active` in it. -/
def port (busy : Option InFlight) (offer : Option CmdWord) : PortState := ⟨active, busy, offer, 0⟩

/-- `ABSORB 8, 0x8877665544332211` (V10). -/
def beatWord : CmdWord := 0x2800000000000000008877665544332211

theorem test_port_accepts : cycle config (offering beatWord) (port none none) =
    .next ⟨active, some ⟨beatWord, 2⟩, none, 1⟩ := rfl
theorem test_port_completes : cycle config quiet (port (some ⟨beatWord, 0⟩) none) =
    .next ⟨(pending 0 0 8).setMix mixed, none, none, 1⟩ := rfl
theorem test_port_reset : cycle config ⟨true, true, beatWord⟩ (port (some ⟨beatWord, 0⟩) none) =
    .next ⟨State.reset, none, some beatWord, 1⟩ := rfl

/-! ### Witnesses: the hypotheses of each statement can be met -/

theorem witness_DecodeReadsTheFields :
    (0x230000000000000000ffffffffff332211 : CmdWord).toNat = (0x2 : BitVec 4).toNat * 2 ^ 132 +
      (0x3 : BitVec 4).toNat * 2 ^ 128 + (0 : Word).toNat * 2 ^ 64 + (0xffffffffff332211 : Word).toNat := by decide

theorem witness_DecodeOfEncodeIsTheCommand :
    (Instr.init 1 2).wf = true ∧ (Instr.absorb 8 3).wf = true ∧ Instr.final.wf = true ∧
    (Instr.illegal 2 9).wf = true := by decide

theorem witness_IllegalEncodingsRaiseIllegalCmd :
    (∃ op len, decode 0x2f00000000000000000000000000000000 = .illegal op len) ∧
    active.fault = false ∧ faulted.fault = true := ⟨⟨2, 15, by decide⟩, by decide⟩

theorem witness_UnusedFieldsHaveNoEffect :
    (8 : BitVec 4).toNat ≤ 8 ∧ (0 : BitVec 4).toNat ≤ 8 ∧
    ((0x2 : BitVec 4) ≠ 0x1 ∧ ((0x2 : BitVec 4) = 0x2 → 8 < (9 : BitVec 4).toNat)) ∧
    ((0x0 : BitVec 4) ≠ 0x1 ∧ ((0x0 : BitVec 4) = 0x2 → 8 < (0 : BitVec 4).toNat)) := by decide

theorem witness_CanonicalWordDoesTheSame : (Instr.absorb 3 0xffffffffff332211).wf = true := by decide

theorem witness_AssembledBeatCarriesItsBytes :
    ([] : List Byte).length ≤ 8 ∧ ([1, 2, 3, 4, 5, 6, 7, 8] : List Byte).length ≤ 8 := by decide

theorem witness_StepRunsTheDecodedCommand :
    { active with host := [.command 0x3000000000000000000000000000000000, .reset] }.host =
      .command 0x3000000000000000000000000000000000 :: [.reset] ∧
    decode 0x3000000000000000000000000000000000 = .final := by decide

theorem witness_StepAlwaysAnswersNext : faulted.host = [] := by decide

theorem witness_StepsFollowTheHostsMoves :
    { active with host := [.command 0, .reset, .command 1] }.host = [.command 0, .reset] ++ [.command 1] := by decide

theorem witness_ResetValues : (0 : BitVec 4).toNat ≤ 8 ∧ (8 : BitVec 4).toNat ≤ 8 := by decide

theorem witness_ResetMoveGivesTheResetState : { faulted with host := [.reset, .reset] }.host = .reset :: [.reset] := by
  decide

theorem witness_InitConstructsAnEngine : finished.fault = false ∧ faulted.fault = true := by decide

theorem witness_InitForgetsThePast : finished.fault = false ∧ active.fault = false := by decide

theorem witness_EveryKeyGivesANonzeroEngine : State.reset.fault = false ∧ ((0 : Word) = 0 ∧ (0 : Word) = 0) ∧
    (iv0 = iv0 ∧ iv1 = iv1) := by decide

theorem witness_RotationMovesEveryBit : (0 < 63 ∧ 63 < 64 ∧ 63 < 64) ∧ (0 < 1 ∧ 1 < 64 ∧ 0 < 64) := by decide

theorem witness_HashCostInRounds : State.reset.fault = false ∧
    ((8 : BitVec 4).toNat ≤ 8 ∧ active.fault = false ∧ active.phase = .active) := by decide

/-- Two rounds for the beat that completes a word (V10), six for `FINAL` (V11 a). -/
theorem test_counted_rounds : countedExec (.absorb 8 0x8877665544332211) active = ⟨mixed, 2⟩ ∧
    countedExec .final active =
      ⟨⟨0x4aad48c25c5f9069, 0xa32eee94879e255b, 0x4af430095c732a6a, 0xbde5ddc2f4c59f8f⟩, 6⟩ := by decide

theorem witness_AbsorbIngestsABeat :
    ((8 : BitVec 4).toNat ≤ 8 ∧ (0 : BitVec 4).toNat ≤ 8 ∧ active.fault = false ∧ active.phase = .active) ∧
    8 ≤ (pending 0x332211 3 3).tcnt.toNat + (5 : BitVec 4).toNat ∧
    ¬ 8 ≤ (pending 0x332211 3 3).tcnt.toNat + (4 : BitVec 4).toNat := by decide

theorem witness_AbsorbTrapsOutsideActive :
    (0 : BitVec 4).toNat ≤ 8 ∧ (State.reset.fault = false ∧ State.reset.phase = .empty) ∧
    (finished.fault = false ∧ finished.phase = .done) := by decide

theorem witness_AbsorbTooLongRaisesIllegalCmd :
    8 < (9 : BitVec 4).toNat ∧ 8 < (15 : BitVec 4).toNat ∧ finished.fault = false := by decide

/-- The seven clauses of R125, each at a boundary of its range. -/
theorem witness_AbsorbCornerCases :
    (TailClean (pending 0x332211 3 3) ∧ TailClean (pending 0x77665544332211 7 7) ∧ TailClean active) ∧
    ((0 : BitVec 4) = 0 ∧ (pending 0x332211 3 3).fault = false ∧ (pending 0x332211 3 3).phase = .active) ∧
    (active.tcnt = 0 ∧ (8 : BitVec 4) = 8) ∧
    (active.tcnt = 0 ∧ (7 : BitVec 4).toNat < 8) ∧
    ((pending 0x332211 3 3).tcnt ≠ 0 ∧ (5 : BitVec 4).toNat = 8 - (pending 0x332211 3 3).tcnt.toNat) ∧
    ((pending 0x332211 3 3).tcnt ≠ 0 ∧ (4 : BitVec 4).toNat < 8 - (pending 0x332211 3 3).tcnt.toNat) ∧
    ((pending 0x332211 3 3).tcnt ≠ 0 ∧ 8 - (pending 0x332211 3 3).tcnt.toNat < (6 : BitVec 4).toNat) ∧
    ((pending 0x77665544332211 7 7).tcnt = 7 ∧ (8 : BitVec 4) = 8) := by decide

theorem witness_AbsorbPlacesEveryByte :
    TailClean (pending 0x332211 3 3) ∧ (pending 0x332211 3 3).fault = false ∧
    (pending 0x332211 3 3).phase = .active ∧ 7 < 8 ∧
    (pending 0x332211 3 3).tcnt.toNat + (4 : BitVec 4).toNat < 8 ∧
    8 ≤ (pending 0x332211 3 3).tcnt.toNat + (5 : BitVec 4).toNat := by decide

theorem witness_TotalWrapsWithoutFault :
    let s := pending 0x0504030201 5 0xfffffffffffffffd
    (4 : BitVec 4).toNat ≤ 8 ∧ s.fault = false ∧ s.phase = .active ∧ CountsAgree s ∧
    s.total = 0xfffffffffffffffd ∧ s.tcnt = 5 := by decide

theorem witness_OnlyTheLowByteOfTotalIsRead :
    (0x7303 : Word).toNat % 256 = (pending 0x332211 3 3).total.toNat % 256 := by decide

theorem witness_AbsorbIsAddOfItsBytes : (8 : BitVec 4).toNat ≤ 8 ∧ TailClean (pending 0x332211 3 3) := by decide

theorem witness_AddIsByteAtATime : (pending 0x332211 3 3).fault = false ∧ (pending 0x332211 3 3).phase = .active ∧
    TailClean (pending 0x332211 3 3) := by decide

/-- Beats of no byte, of a full word and of three bytes. -/
theorem test_legal_beats : LegalBeats [(0, 0), (8, 0x1122334455667788), (3, 5)] := by
  intro b hb
  simp only [List.mem_cons, List.not_mem_nil, or_false] at hb
  rcases hb with rfl | rfl | rfl <;> decide

theorem witness_ChunkingInvariance : (pending 0x332211 3 3).fault = false ∧ (pending 0x332211 3 3).phase = .active ∧
    TailClean (pending 0x332211 3 3) ∧ LegalBeats [(0, 0), (8, 0x1122334455667788), (3, 5)] :=
  ⟨rfl, rfl, by decide, test_legal_beats⟩

theorem witness_IngestionClosedForm : State.reset.fault = false ∧
    LegalBeats [(0, 0), (8, 0x1122334455667788), (3, 5)] := ⟨rfl, test_legal_beats⟩

theorem witness_FinalProducesTheDigest : active.fault = false ∧ active.phase = .active := by decide

theorem witness_FinalTrapsOutsideActive : (State.reset.fault = false ∧ State.reset.phase = .empty) ∧
    (finished.fault = false ∧ finished.phase = .done) := by decide

theorem witness_PaddedWordIsTailAndLength : TailClean (pending 0x77665544332211 7 7) ∧ TailClean active ∧ 6 < 7 ∧
    State.reset.fault = false ∧ LegalBeats [(0, 0), (8, 0x1122334455667788), (3, 5)] :=
  ⟨by decide, by decide, by decide, rfl, test_legal_beats⟩

/-- Lengths that differ modulo 256 (one byte more), and lengths that agree (256 more). -/
theorem witness_LengthByteSeparatesTrailingZeros :
    (0 < 1 ∧ (([] : List Byte) ++ List.replicate 1 0).length % 256 ≠ ([] : List Byte).length % 256) ∧
    (0 < 256 ∧ (([] : List Byte) ++ List.replicate 256 0).length % 256 = ([] : List Byte).length % 256) := by
  simp only [List.length_append, List.length_replicate]
  decide

theorem witness_NativeDigestIsSized : { finished with digest := 0xa129ca6149be45e5 }.digest = 0xa129ca6149be45e5 := rfl

theorem witness_NativeDigestReadsSigned :
    { finished with digest := 0xa129ca6149be45e5 }.digest = 0xa129ca6149be45e5 ∧
    { finished with digest := 0x726fdb47dd0e0e31 }.digest = 0x726fdb47dd0e0e31 := ⟨rfl, rfl⟩

theorem witness_HardwareComputesSipHash24 : finished.fault = false ∧
    LegalBeats [(0, 0), (8, 0x1122334455667788), (3, 5)] := ⟨rfl, test_legal_beats⟩

theorem witness_PseudoInstructionsPerformTheirOperations :
    TailClean (pending 0x332211 3 3) ∧ State.reset.fault = false := by decide

theorem witness_FaultedCoreIgnoresEveryCommand : faulted.fault = true ∧
    { faulted with host := [.command 0x1000000000000000000000000000000000] }.host =
      .command 0x1000000000000000000000000000000000 :: [] := by decide

theorem witness_FaultsArePrecise : finished.fault = false ∧
    exec .final finished = .next { finished with fault := true, fcause := 4 } ∧
    { finished with fault := true, fcause := 4 }.fault = true := ⟨rfl, rfl, rfl⟩

/-- A command of each outcome: one that reports a cause, and one that reports none. -/
theorem witness_CausesAsTabulated : (Instr.absorb 8 0).wf = true ∧ finished.fault = false ∧
    causeOf (.absorb 8 0) finished.phase = some .absorbAfterFinal ∧ causeOf (.absorb 8 0) active.phase = none := by
  decide

theorem witness_PhaseTransitionsAsTabulated : active.fault = false ∧ faulted.fault = true ∧
    causeOf (decode 0x3000000000000000000000000000000000) active.phase = none ∧
    causeOf (decode 0x3000000000000000000000000000000000) State.reset.phase = some .notInitialised ∧
    { faulted with host := [.reset] }.host = .reset :: [] := by decide

theorem witness_OnlyResetClearsFault :
    step { faulted with host := [.reset] } = .next State.reset ∧ faulted.fault = true ∧
    (State.reset.fault = false ∨ State.reset.fcause ≠ faulted.fcause) := ⟨rfl, rfl, .inl rfl⟩

theorem witness_GoodRunsHaveGoodBeginnings :
    GoodRun ([0x1000000000000000000000000000000000] ++ [0x2000000000000000000000000000000000]) := by decide

theorem witness_DoneEngineIsLeftAlone : finished.phase = .done ∧
    exec .final finished = .next { finished with fault := true, fcause := 4 } ∧
    ∀ k0 k1, Instr.final ≠ .init k0 k1 := ⟨rfl, rfl, by simp⟩

theorem witness_RegistersHaveNoOtherWriters :
    step { active with host := [.command 0x2300000000000000000000000000332211] } = .next (pending 0x332211 3 3) := rfl

theorem witness_PortsHideKeyAndMessage : SameAtPorts active (pending 0x332211 3 3) ∧
    List.Forall₂ (fun w u : CmdWord => opField w = opField u ∧ lenField w = lenField u ∧ opField w ≠ 0x3)
      [0x2300000000000000000000000000000000] [0x2300000000000000000000000000332211] :=
  ⟨by decide, .cons (by decide) .nil⟩

theorem witness_NoDataValueCausesAFault :
    (active.phase = (pending 0x332211 3 3).phase ∧ active.fault = (pending 0x332211 3 3).fault ∧
      active.fcause = (pending 0x332211 3 3).fcause) ∧
    List.Forall₂ (fun w u : CmdWord => opField w = opField u ∧ lenField w = lenField u)
      [0x3000000000000000000000000000000000] [0x3000000000000000000000000000332211] :=
  ⟨by decide, .cons (by decide) .nil⟩

theorem witness_StepKeepsTheInvariants :
    Invariants { State.reset with host := [.command 0x1000000000000000000000000000000000] } ∧
    step { State.reset with host := [.command 0x1000000000000000000000000000000000] } = .next active :=
  ⟨by decide, rfl⟩

theorem witness_CyclesRefineTheRun :
    cycles config [offering beatWord, quiet, quiet, quiet] (port none none) =
      .next ⟨(pending 0 0 8).setMix mixed, none, none, 4⟩ ∧
    (⟨(pending 0 0 8).setMix mixed, none, none, 4⟩ : PortState).cmdReady = true := ⟨rfl, rfl⟩

/-- A busy time of 0 (`INIT` in `config`) and of 3, with no offer before the cycle and with this one already offered. -/
theorem witness_AcceptanceStartsTheCommand :
    resetApplied config (offering beatWord) = false ∧ (port none none).cmdReady = true ∧
    (offering beatWord).cmdValid = true ∧ (port none none).offer = none ∧
    (port none (some beatWord)).offer = some (offering beatWord).cmdWord ∧
    busyTime config (offering beatWord).cmdWord active = 2 + 1 ∧
    busyTime config 0x1000000000000000000000000000000000 active = 0 := by decide

/-- A host that is quiet and then offers, over all the busy cycles and over the first two of three, and one that keeps an offer
made before them. -/
theorem witness_AcceptedCommandCompletes :
    (port (some ⟨beatWord, 2⟩) none).busy = some ⟨beatWord, 2⟩ ∧
    ((∀ pins ∈ [quiet, offering beatWord, offering beatWord], resetApplied config pins = false) ∧
      offersKept (port (some ⟨beatWord, 2⟩) none).offer [quiet, offering beatWord, offering beatWord] = true ∧
      [quiet, offering beatWord, offering beatWord].length = 2 + 1) ∧
    ((∀ pins ∈ [quiet, offering beatWord], resetApplied config pins = false) ∧
      offersKept (port (some ⟨beatWord, 2⟩) none).offer [quiet, offering beatWord] = true ∧
      [quiet, offering beatWord].length ≤ 2) ∧
    offersKept (port (some ⟨beatWord, 2⟩) (some beatWord)).offer [offering beatWord] = true := by
  simp only [List.forall_mem_cons, List.not_mem_nil, IsEmpty.forall_iff, implies_true, and_true]
  decide

/-- An offer withdrawn or changed is not kept. -/
theorem test_offer_not_kept : offersKept none [offering beatWord, quiet] = false ∧
    offersKept (some beatWord) [offering 0] = false := by decide

theorem witness_ResetWinsOverEverything : resetApplied config ⟨true, true, beatWord⟩ = true := by decide

theorem witness_FaultNeverBlocksTheHost :
    ((⟨finished, none, none, 0⟩ : PortState).core.fault = true →
      (⟨finished, none, none, 0⟩ : PortState).cmdReady = true) ∧
    cycle { config with latAbsorb := 0 } (offering 0x2000000000000000000000000000000000)
      ⟨finished, none, none, 0⟩ = .next ⟨{ finished with fault := true, fcause := 3 }, none, none, 1⟩ ∧
    { finished with fault := true, fcause := 3 }.fault = true := ⟨fun _ => rfl, rfl, rfl⟩

theorem witness_ChangedOfferIsRefused : resetApplied config quiet = false ∧
    (port none (some beatWord)).offer = some beatWord ∧
    (quiet.cmdValid = false ∨ quiet.cmdWord ≠ beatWord) ∧
    ((offering 0).cmdValid = false ∨ (offering 0).cmdWord ≠ beatWord) := by decide

end Sys2Proof.Tests
end

namespace Sys2Proof.Machine

/-!
The statements on the state (spec/10_state.md): one inversion lemma for a step and one for a command word, from which the
invariants, the lifecycle and the writers of each register follow; and one lemma for two runs side by side, from which what
`total` is read for and what the ports tell follow.
-/

/-! ### The machine's answers, once for all statements below -/

/-- Everything a step that answers `t` can have done: stay idle, or make the host's next move. -/
theorem step_inversion {s t : State} (h : step s = .next t) :
    (s.host = [] ∧ t = s) ∨ ∃ m rest, s.host = m :: rest ∧ t = (runMove s m).setHost rest := by
  cases hs : s.host with
  | nil =>
    have idle : step s = .next s := by simp [step, State.takeMove, hs]
    exact .inl ⟨rfl, (Host.Outcome.next.inj (idle.symm.trans h)).symm⟩
  | cons m rest =>
    exact .inr ⟨m, rest, rfl, (Host.Outcome.next.inj ((step_move s m rest hs).symm.trans h)).symm⟩

/-- The decoder gives no `absorb` of more than eight bytes (R77). -/
theorem decode_absorb_len {w : CmdWord} {len : BitVec 4} {d0 : Word} (h : decode w = .absorb len d0) :
    len.toNat ≤ 8 := by
  unfold decode at h
  split at h
  · cases h
  · split at h
    · split at h
      · cases h; assumption
      · cases h
    · split at h <;> cases h

/-- Everything an unfaulted core does with a word: report the tabulated cause (R161, R163) and write nothing else, or run
one of the three commands where it is legal. -/
theorem runWord_cases {s : State} (w : CmdWord) (hf : s.fault = false) :
    (∃ c, causeOf (decode w) s.phase = some c ∧ runWord s w = s.raiseFault c) ∨
    (∃ k0 k1, decode w = .init k0 k1 ∧ runWord s w = s.construct k0 k1) ∨
    (s.phase = .active ∧ ∃ len d0, decode w = .absorb len d0 ∧ len.toNat ≤ 8 ∧ runWord s w = s.absorbBeat len d0) ∨
    (s.phase = .active ∧ decode w = .final ∧ runWord s w = s.finalize) := by
  unfold runWord
  cases hd : decode w with
  | init k0 k1 => exact .inr (.inl ⟨k0, k1, rfl, runInstr_init k0 k1 hf⟩)
  | illegal op len => exact .inl ⟨.illegalCmd, by simp [causeOf], runInstr_illegal op len hf⟩
  | absorb len d0 =>
    have hl := decode_absorb_len hd
    rw [runInstr_absorb d0 hf hl]
    obtain ⟨hp, e⟩ | ⟨hp, e⟩ | ⟨hp, e⟩ := whenActive_cases s .absorbAfterFinal fun s => s.absorbBeat len d0
    · exact .inl ⟨_, by rw [hp, causeOf], e⟩
    · exact .inr (.inr (.inl ⟨hp, len, d0, rfl, hl, e⟩))
    · exact .inl ⟨_, by rw [hp, causeOf], e⟩
  | final =>
    rw [runInstr_final hf]
    obtain ⟨hp, e⟩ | ⟨hp, e⟩ | ⟨hp, e⟩ := whenActive_cases s .finalAfterFinal State.finalize
    · exact .inl ⟨_, by rw [hp, causeOf], e⟩
    · exact .inr (.inr (.inr ⟨hp, rfl, e⟩))
    · exact .inl ⟨_, by rw [hp, causeOf], e⟩

/-- A faulted core ignores every word (R167). -/
theorem runWord_faulted {s : State} (w : CmdWord) (hf : s.fault = true) : runWord s w = s :=
  runInstr_faulted (decode w) hf

/-- A word offered by the host is run. -/
theorem runMove_command (s : State) (w : CmdWord) : runMove s (.command w) = runWord s w := rfl

/-- A run of words is the run of the commands they decode to. -/
theorem runWords_eq_runInstrs (s : State) (ws : List CmdWord) : runWords s ws = runInstrs s (ws.map decode) := by
  rw [runInstrs, List.foldl_map]; rfl

/-! ### Invariants (spec/10_state.md R32) -/

/-- The invariants speak of the registers alone. -/
theorem Invariants.setHost {s : State} (h : Invariants s) (moves : List HostMove) : Invariants (s.setHost moves) := h

/-- A beat keeps the tail clean, since each of its bytes does. -/
theorem absorbBeat_clean {s : State} (h : TailClean s) {len : BitVec 4} (hl : len.toNat ≤ 8) (d0 : Word) :
    TailClean (s.absorbBeat len d0) := by
  have byLength : ∀ n ≤ 8, TailClean (s.absorbBeat (BitVec.ofNat 4 n) d0) := by
    intro n
    induction n with
    | zero => intro _; rw [show BitVec.ofNat 4 0 = 0 from rfl, absorbBeat_zero]; exact h
    | succ n ih => intro hn; rw [absorbBeat_succ h d0 (by omega)]; exact addByte_clean (ih (by omega)) _
  simpa using byLength len.toNat hl

/-- A beat keeps `tcnt = total mod 8`, also where `total` wraps: 8 divides 2^64 (R128). -/
theorem absorbBeat_countsAgree {s : State} (h : CountsAgree s) (len : BitVec 4) (d0 : Word) :
    CountsAgree (s.absorbBeat len d0) := by
  have hlen := len.isLt
  unfold CountsAgree at h ⊢
  rw [absorbBeat_tcnt, absorbBeat_total, BitVec.toNat_add, BitVec.toNat_setWidth]
  omega

/-- A `phase` is one of the three that have a name (INV5). -/
theorem Phase.code_ne_three (p : Phase) : p.code ≠ 0b11 := by cases p <;> decide

/-- Fault entry writes a legal cause and no data (R165). -/
theorem Invariants.raiseFault {s : State} (h : Invariants s) {c : Cause}
    (hc : c = .illegalCmd ∨ c = .notInitialised ∨ c = .absorbAfterFinal ∨ c = .finalAfterFinal) :
    Invariants (s.raiseFault c) := by
  obtain ⟨tcnt, counts, clean, -, phase, zero, digest⟩ := h
  have legal : CauseLegal (s.raiseFault c) := by
    obtain rfl | rfl | rfl | rfl := hc <;> simp [CauseLegal, Cause.code]
  exact ⟨tcnt, counts, clean, legal, phase, zero, digest⟩

/-- A new engine has no pending byte, no count and no digest (R90). -/
theorem Invariants.construct {s : State} (h : Invariants s) (k0 k1 : Word) : Invariants (s.construct k0 k1) := by
  obtain ⟨-, -, -, cause, -, -, -⟩ := h
  have clean : TailClean (s.construct k0 k1) := BitVec.zero_ushiftRight
  exact ⟨Nat.zero_le 7, rfl, clean, cause, Phase.code_ne_three _, nofun, fun _ => rfl⟩

/-- A beat in `phase = ACTIVE` (R124). -/
theorem Invariants.absorbBeat {s : State} (h : Invariants s) (hp : s.phase = .active) {len : BitVec 4}
    (hl : len.toNat ≤ 8) (d0 : Word) : Invariants (s.absorbBeat len d0) := by
  obtain ⟨-, counts, clean, cause, -, -, digest⟩ := h
  obtain ⟨efault, efcause, ephase, edigest⟩ := absorbBeat_rest s len d0
  have tcnt : (s.absorbBeat len d0).tcnt.toNat ≤ 7 := by rw [absorbBeat_tcnt]; omega
  have legal : CauseLegal (s.absorbBeat len d0) := by rw [CauseLegal, efault, efcause]; exact cause
  have zero : EmptyIsZero (s.absorbBeat len d0) := by rw [EmptyIsZero, ephase, hp]; nofun
  have noDigest : ActiveHasNoDigest (s.absorbBeat len d0) := fun _ => edigest.trans (digest hp)
  exact ⟨tcnt, absorbBeat_countsAgree counts len d0, absorbBeat_clean clean hl d0, legal, Phase.code_ne_three _, zero,
    noDigest⟩

/-- `FINAL` leaves the tail and both counts, and ends in `phase = DONE` (R140, R145). -/
theorem Invariants.finalize {s : State} (h : Invariants s) : Invariants s.finalize := by
  obtain ⟨tcnt, counts, clean, cause, -, -, -⟩ := h
  exact ⟨tcnt, counts, clean, cause, Phase.code_ne_three _, nofun, nofun⟩

/-- Settles O52, register by register of the reset table. -/
theorem invariantsHoldAtReset : Obligations.InvariantsHoldAtReset := by
  unfold Obligations.InvariantsHoldAtReset
  have clean : TailClean State.reset := BitVec.zero_ushiftRight
  have legal : CauseLegal State.reset := ⟨fun _ => rfl, nofun⟩
  exact ⟨Nat.zero_le 7, rfl, clean, legal, Phase.code_ne_three _, fun _ => ⟨rfl, rfl, rfl, rfl, rfl, rfl, rfl, rfl⟩,
    nofun⟩

/-- Every command keeps the invariants. -/
theorem Invariants.runInstr {s : State} (h : Invariants s) (i : Instr) : Invariants (runInstr s i) := by
  obtain ⟨-, e⟩ | ⟨-, c, hc, e⟩ | ⟨-, k0, k1, -, e⟩ | ⟨-, hp, len, d0, -, hl, e⟩ | ⟨-, -, -, e⟩ :=
    runInstr_cases s i <;> rw [e]
  · exact h
  · exact h.raiseFault hc
  · exact h.construct k0 k1
  · exact h.absorbBeat hp hl d0
  · exact h.finalize

/-- Every move of the host keeps the invariants. -/
theorem Invariants.runMove {s : State} (h : Invariants s) (m : HostMove) : Invariants (runMove s m) := by
  cases m with
  | command w => exact h.runInstr (decode w)
  | reset => exact Invariants.setHost invariantsHoldAtReset s.host

/-- Settles O53: a step is idle or one move of the host, and each kind of move keeps the invariants. -/
theorem stepKeepsTheInvariants : Obligations.StepKeepsTheInvariants := by
  unfold Obligations.StepKeepsTheInvariants
  intro s t hs hstep
  obtain ⟨-, rfl⟩ | ⟨m, rest, -, rfl⟩ := step_inversion hstep
  · exact hs
  · exact (hs.runMove m).setHost rest

/-- Settles O54: the invariants hold at reset and every move keeps them. -/
theorem invariantsHoldInEveryReachableState : Obligations.InvariantsHoldInEveryReachableState := by
  unfold Obligations.InvariantsHoldInEveryReachableState
  intro ms
  exact List.foldlRecOn ms runMove invariantsHoldAtReset fun _ hs m _ => hs.runMove m

/-! ### Two runs side by side -/

/-- Commands of one opcode and one length, whatever their key and data: what the causes and `phase` depend on (R173). -/
inductive SameShape : Instr → Instr → Prop
  | init (k0 k1 k0' k1' : Word) : SameShape (.init k0 k1) (.init k0' k1')
  | absorb (len : BitVec 4) (d0 d0' : Word) : SameShape (.absorb len d0) (.absorb len d0')
  | final : SameShape .final .final
  | illegal (op len : BitVec 4) : SameShape (.illegal op len) (.illegal op len)

/-- A command has its own shape. -/
theorem SameShape.refl : ∀ i : Instr, SameShape i i
  | .init _ _ => .init ..
  | .absorb _ _ => .absorb ..
  | .final => .final
  | .illegal _ _ => .illegal ..

/-- Words that agree in `op` and `len` decode to commands of one shape (R71). -/
theorem decode_sameShape {w u : CmdWord} (hop : opField w = opField u) (hlen : lenField w = lenField u) :
    SameShape (decode w) (decode u) := by
  unfold decode
  rw [hop, hlen]
  split
  · exact .init ..
  · split
    · split
      · exact .absorb ..
      · exact .illegal ..
    · split
      · exact .final
      · exact .illegal ..

/-- A word that decodes to `FINAL` has the opcode 3 (R72). -/
theorem opField_of_decode_final {w : CmdWord} (h : decode w = .final) : opField w = 0x3 := by
  unfold decode at h
  split at h
  · cases h
  · split at h
    · split at h <;> cases h
    · split at h
      · assumption
      · cases h

/-- The lifecycle check of two states in one `phase` takes the same way. -/
theorem whenActive_rel {r : State → State → Prop} {s t : State} {f g : State → State} (c : Cause)
    (phase : s.phase = t.phase) (raise : ∀ c, r (s.raiseFault c) (t.raiseFault c))
    (effect : s.phase = .active → r (f s) (g t)) : r (whenActive s c f) (whenActive t c g) := by
  cases hp : s.phase with
  | empty => rw [whenActive_empty c f hp, whenActive_empty c g (phase ▸ hp)]; exact raise _
  | active => rw [whenActive_active c f hp, whenActive_active c g (phase ▸ hp)]; exact effect hp
  | done => rw [whenActive_done c f hp, whenActive_done c g (phase ▸ hp)]; exact raise _

/-- A relation between two states that agree on `phase` and `fault` outlives two commands of one shape, if fault entry and
the effects of the three commands keep it. -/
theorem runInstr_rel {r : State → State → Prop} {s t : State} {i j : Instr} (shape : SameShape i j) (same : r s t)
    (phase : s.phase = t.phase) (fault : s.fault = t.fault)
    (raise : ∀ c, r (s.raiseFault c) (t.raiseFault c))
    (init : ∀ k0 k1 k0' k1', i = .init k0 k1 → j = .init k0' k1' → r (s.construct k0 k1) (t.construct k0' k1'))
    (absorb : s.phase = .active → ∀ len d0 d0', i = .absorb len d0 → j = .absorb len d0' →
      r (s.absorbBeat len d0) (t.absorbBeat len d0'))
    (final : s.phase = .active → i = .final → r s.finalize t.finalize) : r (runInstr s i) (runInstr t j) := by
  cases hf : s.fault with
  | true => rw [runInstr_faulted i hf, runInstr_faulted j (fault ▸ hf)]; exact same
  | false =>
    have hf' : t.fault = false := fault ▸ hf
    cases shape with
    | init k0 k1 k0' k1' => rw [runInstr_init k0 k1 hf, runInstr_init k0' k1' hf']; exact init _ _ _ _ rfl rfl
    | illegal op len => rw [runInstr_illegal op len hf, runInstr_illegal op len hf']; exact raise _
    | final =>
      rw [runInstr_final hf, runInstr_final hf']
      exact whenActive_rel _ phase raise fun hp => final hp rfl
    | absorb len d0 d0' =>
      by_cases hl : len.toNat ≤ 8
      · rw [runInstr_absorb d0 hf hl, runInstr_absorb d0' hf' hl]
        exact whenActive_rel _ phase raise fun hp => absorb hp len d0 d0' rfl rfl
      · rw [runInstr_absorb_tooLong d0 hf hl, runInstr_absorb_tooLong d0' hf' hl]; exact raise _

/-! ### What `total` is read for (R25) -/

/-- `t` is `s` but for `total`, and there the two agree modulo 256. -/
def SameButHighTotal (s t : State) : Prop := ∃ n : Word, t = s.setTotal n ∧ n.toNat % 256 = s.total.toNat % 256

/-- A beat adds its length to `total` and reads nothing of it. -/
theorem absorbBeat_setTotal (s : State) (n : Word) (len : BitVec 4) (d0 : Word) :
    (s.setTotal n).absorbBeat len d0 = (s.absorbBeat len d0).setTotal (n + len.setWidth 64) := by
  obtain h | h : s.tcnt.toNat + len.toNat < 8 ∨ 8 ≤ s.tcnt.toNat + len.toNat := by omega
  · rw [absorbBeat_short d0 h, absorbBeat_short d0 (s := s.setTotal n) h]; rfl
  · rw [absorbBeat_long d0 h, absorbBeat_long d0 (s := s.setTotal n) h]; rfl

/-- `FINAL` reads of `total` its low byte (R141). -/
theorem finalize_setTotal (s : State) {n : Word} (h : n.toNat % 256 = s.total.toNat % 256) :
    (s.setTotal n).finalize = s.finalize.setTotal n := by
  have padded : paddedWord s.tail n = paddedWord s.tail s.total := by
    rw [paddedWord, paddedWord, lowByte_word, lowByte_word, h]
  have mixing : finalMix s.tail n s.mix = finalMix s.tail s.total s.mix := by rw [finalMix, finalMix, padded]
  simp only [State.finalize, State.setTotal_tail, State.setTotal_total, State.setTotal_mix, mixing]
  rfl

/-- No command reads more of `total` than its low byte. -/
theorem SameButHighTotal.runInstr {s t : State} (h : SameButHighTotal s t) (i : Instr) :
    SameButHighTotal (runInstr s i) (runInstr t i) := by
  obtain ⟨n, rfl, hn⟩ := h
  apply runInstr_rel (s := s) (t := s.setTotal n) (SameShape.refl i) (phase := rfl) (fault := rfl)
  case same => exact ⟨n, rfl, hn⟩
  case raise => exact fun c => ⟨n, rfl, hn⟩
  case init =>
    intro k0 k1 k0' k1' hi hi'
    cases hi.symm.trans hi'
    exact ⟨0, rfl, rfl⟩
  case absorb =>
    intro _ len d0 d0' hi hi'
    cases hi.symm.trans hi'
    refine ⟨_, absorbBeat_setTotal s n len d0, ?_⟩
    rw [absorbBeat_total, BitVec.toNat_add, BitVec.toNat_add]
    omega
  case final => exact fun _ _ => ⟨n, finalize_setTotal s hn, hn⟩

/-- Settles O28, by induction on the commands: each keeps the relation `SameButHighTotal`. -/
theorem onlyTheLowByteOfTotalIsRead : Obligations.OnlyTheLowByteOfTotalIsRead := by
  unfold Obligations.OnlyTheLowByteOfTotalIsRead
  intro s n is hn
  have start : SameButHighTotal s (s.setTotal n) := ⟨n, rfl, hn⟩
  exact List.foldl_rel (l := is) start fun i _ _ _ h => h.runInstr i

/-! ### Where the bytes of a beat land (R53, R124) -/

/-- Bit `i` of byte `k` of a word, within the byte. -/
theorem byteOf_getElem (w : Word) (k : Nat) {i : Nat} (hi : i < 8) : (byteOf w k)[i] = w.getLsbD (8 * k + i) := by
  rw [← BitVec.getLsbD_eq_getElem, byteOf_bit]
  simp [hi]

/-- A byte of a word is known by its eight bits. -/
theorem byteOf_eq_of_bits {w : Word} {j : Nat} {b : Byte}
    (h : ∀ (i : Nat) (hi : i < 8), w.getLsbD (8 * j + i) = b[i]) : byteOf w j = b := by
  ext i hi
  rw [byteOf_getElem w j hi, h i hi]

/-- Bytes of a disjunction. -/
theorem byteOf_or (a b : Word) (j : Nat) : byteOf (a ||| b) j = byteOf a j ||| byteOf b j := by
  apply byteOf_eq_of_bits
  intro i hi
  simp [byteOf_getElem]

/-- A word shifted up by `k` bytes holds byte `j - k` at position `j`. -/
theorem byteOf_shiftLeft (w : Word) (k : Nat) {j : Nat} (hj : j < 8) :
    byteOf (w <<< (8 * k)) j = if j < k then 0 else byteOf w (j - k) := by
  apply byteOf_eq_of_bits
  intro i hi
  have inWord : 8 * j + i < 64 := by omega
  split
  · have below : 8 * j + i < 8 * k := by omega
    simp [below]
  · have above : ¬ 8 * j + i < 8 * k := by omega
    have source : 8 * j + i - 8 * k = 8 * (j - k) + i := by omega
    rw [byteOf_getElem _ _ hi, BitVec.getLsbD_shiftLeft, source]
    simp [inWord, above]

/-- A word shifted down by `k` bytes holds byte `k + j` at position `j`. -/
theorem byteOf_ushiftRight (w : Word) (k j : Nat) : byteOf (w >>> (8 * k)) j = byteOf w (k + j) := by
  apply byteOf_eq_of_bits
  intro i hi
  simp [byteOf_getElem, Nat.mul_add, Nat.add_assoc]

/-- A word has eight bytes; above them this reads zero. -/
theorem byteOf_of_ge (w : Word) {j : Nat} (hj : 8 ≤ j) : byteOf w j = 0 := by
  apply byteOf_eq_of_bits
  intro i hi
  simpa using BitVec.getLsbD_of_ge w _ (by omega)

/-- A beat's value has the beat's bytes and no other (R74). -/
theorem byteOf_beatValue (len : BitVec 4) (d0 : Word) (j : Nat) :
    byteOf (beatValue len d0) j = if j < len.toNat then byteOf d0 j else 0 := by
  apply byteOf_eq_of_bits
  intro i hi
  rw [beatValue, BitVec.getLsbD_and, lowmask_bit]
  split
  · have masked : 8 * j + i < 8 * len.toNat := by omega
    by_cases inWord : 8 * j + i < 64
    · simp [byteOf_getElem, masked, inWord]
    · simp [byteOf_getElem, inWord, BitVec.getLsbD_of_ge d0 _ (by omega : 64 ≤ 8 * j + i)]
  · have unmasked : ¬ 8 * j + i < 8 * len.toNat := by omega
    simp [unmasked]

/-- A clean tail has no byte from `tcnt` on. -/
theorem byteOf_tail_of_clean {s : State} (h : TailClean s) {j : Nat} (hj : s.tcnt.toNat ≤ j) :
    byteOf s.tail j = 0 := by
  apply byteOf_eq_of_bits
  intro i hi
  simpa using tailClean_bit h (by omega)

/-- The word being filled: the pending bytes, then those of the beat. -/
theorem byteOf_accumulator_low {s : State} (h : TailClean s) (len : BitVec 4) (d0 : Word) {j : Nat} (hj : j < 8) :
    byteOf ((accumulator s.tail s.tcnt (beatValue len d0)).extractLsb' 0 64) j =
      if j < s.tcnt.toNat then byteOf s.tail j
      else if j < s.tcnt.toNat + len.toNat then byteOf d0 (j - s.tcnt.toNat) else 0 := by
  rw [accumulator_low_word, byteOf_or, byteOf_shiftLeft _ _ hj]
  split
  · simp
  · have taken : j - s.tcnt.toNat < len.toNat ↔ j < s.tcnt.toNat + len.toNat := by omega
    simp [byteOf_tail_of_clean h (by omega : s.tcnt.toNat ≤ j), byteOf_beatValue, taken]

/-- The bytes of a beat beyond the word it completes. -/
theorem byteOf_accumulator_high (tail : Word) (tcnt : BitVec 3) {len : BitVec 4} (d0 : Word) (hl : len.toNat ≤ 8)
    (hc : 8 ≤ tcnt.toNat + len.toNat) (j : Nat) :
    byteOf ((accumulator tail tcnt (beatValue len d0)).extractLsb' 64 64) j =
      if j < tcnt.toNat + len.toNat - 8 then byteOf d0 (8 - tcnt.toNat + j) else 0 := by
  have ht := tcnt.isLt
  rw [accumulator_high_word]
  split
  case isTrue h0 =>
    have zero : tcnt.toNat = 0 := by simp [h0]
    have none : ¬ j < tcnt.toNat + len.toNat - 8 := by omega
    simp [none, byteOf]
  case isFalse =>
    have taken : 8 - tcnt.toNat + j < len.toNat ↔ j < tcnt.toNat + len.toNat - 8 := by omega
    simp [byteOf_ushiftRight, byteOf_beatValue, taken]

/-- Settles O26: the word is the low half of the accumulator of R124, and the new tail its high half. -/
theorem absorbPlacesEveryByte : Obligations.AbsorbPlacesEveryByte := by
  unfold Obligations.AbsorbPlacesEveryByte
  intro len d0 s hl hf hp clean
  refine ⟨s.absorbBeat len d0, (accumulator s.tail s.tcnt (beatValue len d0)).extractLsb' 0 64, ?_, ?_, ?_, ?_⟩
  · rw [exec_eq_next, runInstr_absorb_active d0 hl hf hp]
  · exact fun j hj => byteOf_accumulator_low clean len d0 hj
  · intro short
    rw [absorbBeat_short d0 short]
    exact ⟨rfl, rfl⟩
  · intro long
    rw [absorbBeat_long d0 long]
    exact ⟨rfl, fun j _ => byteOf_accumulator_high s.tail s.tcnt d0 hl long j⟩

/-- Settles O27: a beat adds `len` in a 64-bit register and writes neither `fault` nor `fcause`. -/
theorem totalWrapsWithoutFault : Obligations.TotalWrapsWithoutFault := by
  unfold Obligations.TotalWrapsWithoutFault
  intro len d0 s hl hf hp
  have hlen := len.isLt
  obtain ⟨efault, -, -, -⟩ := absorbBeat_rest s len d0
  refine ⟨s.absorbBeat len d0, ?_, ?_, ?_, ?_, ?_⟩
  · rw [exec_eq_next, runInstr_absorb_active d0 hl hf hp]
  · rw [absorbBeat_total, BitVec.toNat_add, BitVec.toNat_setWidth]
    omega
  · exact efault.trans hf
  · exact fun counts => absorbBeat_countsAgree counts len d0
  · rintro htotal htcnt rfl
    constructor
    · rw [absorbBeat_total, htotal]; rfl
    · apply BitVec.eq_of_toNat_eq
      rw [absorbBeat_tcnt, htcnt]; rfl

/-! ### Faults and the lifecycle (R27, R28) -/

/-- Settles O44: the table is read off `runWord_cases`. -/
theorem phaseTransitionsAsTabulated : Obligations.PhaseTransitionsAsTabulated := by
  unfold Obligations.PhaseTransitionsAsTabulated
  refine ⟨fun w s hf => ⟨runWord s w, exec_eq_next (decode w) s, ?_⟩, ?_, ?_⟩
  · obtain ⟨c, hc, e⟩ | ⟨k0, k1, hd, e⟩ | ⟨hp, len, d0, hd, -, e⟩ | ⟨hp, hd, e⟩ := runWord_cases w hf
    · rw [hc, e]
      exact ⟨rfl, rfl, rfl⟩
    · rw [hd, e]
      exact ⟨rfl, hf⟩
    · obtain ⟨efault, -, ephase, -⟩ := absorbBeat_rest s len d0
      rw [hd, hp, e]
      exact ⟨ephase.trans hp, efault.trans hf⟩
    · rw [hd, hp, e]
      exact ⟨rfl, hf⟩
  · intro w s hf
    rw [exec_eq_next, runInstr_faulted (decode w) hf]
  · intro s rest hs
    exact ⟨_, step_move s .reset rest hs, rfl, rfl⟩

/-- Settles O45: an idle step and a command leave a faulted core as it is. -/
theorem onlyResetClearsFault : Obligations.OnlyResetClearsFault := by
  unfold Obligations.OnlyResetClearsFault
  intro s t hstep hf changed
  have unchanged : ¬ (s.fault = false ∨ s.fcause ≠ s.fcause) := by simp [hf]
  obtain ⟨-, rfl⟩ | ⟨m, rest, hs, rfl⟩ := step_inversion hstep
  · exact absurd changed unchanged
  · cases m with
    | reset => exact ⟨rest, hs⟩
    | command w =>
      rw [runMove_command, runWord_faulted w hf] at changed
      exact absurd changed unchanged

/-- Settles O46: after a faulted beginning the rest of the run is ignored (R167). -/
theorem goodRunsHaveGoodBeginnings : Obligations.GoodRunsHaveGoodBeginnings := by
  unfold Obligations.GoodRunsHaveGoodBeginnings
  intro ws more good
  by_contra bad
  rw [Bool.not_eq_false] at bad
  have ignored : runWords State.reset (ws ++ more) = runWords State.reset ws := by
    calc runWords State.reset (ws ++ more) = runWords (runWords State.reset ws) more := List.foldl_append
      _ = runInstrs (runWords State.reset ws) (more.map decode) := runWords_eq_runInstrs _ more
      _ = runWords State.reset ws := runInstrs_faulted _ _ bad
  rw [GoodRun, ignored, bad] at good
  cases good

/-- A beat that completes no word leaves the mixing registers. -/
theorem absorbBeat_mix_of_short {s : State} {len : BitVec 4} (d0 : Word) (h : s.tcnt.toNat + len.toNat < 8) :
    (s.absorbBeat len d0).mix = s.mix := by
  rw [absorbBeat_short d0 h]; rfl

/-- Settles O48: an idle step and an ignored word write nothing, the other moves what `runWord_cases` says. -/
theorem registersHaveNoOtherWriters : Obligations.RegistersHaveNoOtherWriters := by
  unfold Obligations.RegistersHaveNoOtherWriters
  intro s t hstep
  have same : SameData s s := ⟨rfl, rfl, rfl, rfl, rfl, rfl, rfl, rfl, rfl⟩
  obtain ⟨-, rfl⟩ | ⟨m, rest, hs, rfl⟩ := step_inversion hstep
  · exact .inr (.inl ⟨same, rfl, rfl⟩)
  cases m with
  | reset => exact .inl ⟨rest, hs⟩
  | command w =>
    refine .inr ?_
    rw [runMove_command]
    cases hf : s.fault with
    | true =>
      rw [runWord_faulted w hf]
      exact .inl ⟨same, hf, rfl⟩
    | false =>
      refine .inr ⟨w, rest, hs, rfl, ?_⟩
      obtain ⟨c, hc, e⟩ | ⟨k0, k1, hd, e⟩ | ⟨hp, len, d0, hd, -, e⟩ | ⟨hp, hd, e⟩ := runWord_cases w hf <;> rw [e]
      · exact .inl ⟨c, hc, same, rfl, rfl⟩
      · exact .inr (.inl ⟨k0, k1, hd, hf, rfl⟩)
      · obtain ⟨efault, efcause, ephase, edigest⟩ := absorbBeat_rest s len d0
        exact .inr (.inr (.inl ⟨len, d0, hd, hp, ephase, edigest, efault.trans hf, efcause,
          absorbBeat_mix_of_short d0⟩))
      · exact .inr (.inr (.inr ⟨hd, hp, rfl, rfl, rfl, hf, rfl⟩))

/-! ### The output ports (R30) -/

/-- The ports show what two states that agree on `phase`, `fault`, `fcause` and `digest` have in common. -/
theorem outputs_eq_of_sameAtPorts (nw : NativeWidth) {s t : State} (h : SameAtPorts s t) :
    outputs nw s = outputs nw t := by
  obtain ⟨phase, fault, fcause, digest⟩ := h
  simp only [outputs, phaseO, faultO, fcauseO, digestValid, digestO, digestNative, phase, fault, fcause, digest]

/-- Commands of one shape, `FINAL` apart, carry nothing of key or message to the ports. -/
theorem SameAtPorts.runInstr {s t : State} (h : SameAtPorts s t) {i j : Instr} (shape : SameShape i j)
    (notFinal : i ≠ .final) : SameAtPorts (runInstr s i) (runInstr t j) := by
  obtain ⟨phase, fault, fcause, digest⟩ := h
  apply runInstr_rel shape (phase := phase) (fault := fault)
  case same => exact ⟨phase, fault, fcause, digest⟩
  case raise => exact fun c => ⟨phase, rfl, rfl, digest⟩
  case init => exact fun _ _ _ _ _ _ => ⟨rfl, fault, fcause, rfl⟩
  case absorb =>
    intro _ len d0 d0' _ _
    obtain ⟨sfault, sfcause, sphase, sdigest⟩ := absorbBeat_rest s len d0
    obtain ⟨tfault, tfcause, tphase, tdigest⟩ := absorbBeat_rest t len d0'
    exact ⟨by rw [sphase, tphase, phase], by rw [sfault, tfault, fault], by rw [sfcause, tfcause, fcause],
      by rw [sdigest, tdigest, digest]⟩
  case final => exact fun _ hi => absurd hi notFinal

/-- Two runs of words of the same opcodes and lengths, no `FINAL` among them, show the same. -/
theorem SameAtPorts.runWords {ws us : List CmdWord}
    (words : List.Forall₂ (fun w u => opField w = opField u ∧ lenField w = lenField u ∧ opField w ≠ 0x3) ws us)
    {s t : State} (h : SameAtPorts s t) : SameAtPorts (runWords s ws) (runWords t us) := by
  induction words generalizing s t with
  | nil => exact h
  | cons hwu _ ih =>
    obtain ⟨hop, hlen, notFinal⟩ := hwu
    exact ih (h.runInstr (decode_sameShape hop hlen) fun hd => notFinal (opField_of_decode_final hd))

/-- Settles O50: every command keeps what the ports show equal in the two runs. -/
theorem portsHideKeyAndMessage : Obligations.PortsHideKeyAndMessage := by
  unfold Obligations.PortsHideKeyAndMessage
  intro nw ws us s t h words
  exact outputs_eq_of_sameAtPorts nw (h.runWords words)

/-- Settles O12: the registers and ports by evaluation, the two violating commands by the lifecycle check in `EMPTY`. -/
theorem resetValues : Obligations.ResetValues := by
  unfold Obligations.ResetValues
  refine ⟨rfl, rfl, rfl, rfl, rfl, rfl, rfl, rfl, rfl, rfl, rfl, rfl, rfl, rfl, rfl, rfl, ?_, ?_⟩
  · intro len d0 hl
    rw [exec_eq_next, runInstr_absorb d0 rfl hl, whenActive_empty _ _ rfl]
    rfl
  · rw [exec_eq_next, runInstr_final rfl, whenActive_empty _ _ rfl]
    rfl

/-- Settles O49, by the three phases and the two values of `fault`. -/
theorem portsShowTheRegisters : Obligations.PortsShowTheRegisters := by
  unfold Obligations.PortsShowTheRegisters
  intro w s
  refine ⟨?_, ?_, rfl, ?_, rfl, rfl⟩
  · show s.phase.code = _
    cases s.phase <;> rfl
  · show BitVec.ofBool s.fault = _
    cases s.fault <;> rfl
  · show BitVec.ofBool (s.phase == .done && !s.fault) = _
    cases s.phase <;> cases s.fault <;> rfl

end Sys2Proof.Machine

namespace Sys2Proof.Machine

/-!
The statements on the bytes that enter the core and on the order of its moves (spec/20_memory.md): a byte list assembled
to a beat, a byte sequence cut into chunks or beats, and runs step by step and clock cycle by clock cycle.
-/

/-! ### A beat assembled from its bytes (R52, R74, R79) -/

/-- The count of at most eight bytes fits the field `len`. -/
theorem length_toNat {bs : List Byte} (h : bs.length ≤ 8) : (BitVec.ofNat 4 bs.length).toNat = bs.length := by
  rw [BitVec.toNat_ofNat]
  omega

/-- Byte `i` of packed bytes is byte `i` of the list, 0 beyond its end (R53). -/
theorem byteOf_packBytes (bs : List Byte) {i : Nat} (hi : i < 8) : byteOf (packBytes bs) i = bs.getD i 0 := by
  apply byteOf_eq_of_bits
  intro k hk
  have inWord : 8 * i + k < 64 := by omega
  have byte : (8 * i + k) / 8 = i := by omega
  have bit : (8 * i + k) % 8 = k := by omega
  rw [packBytes, placeBytes_bit, Nat.sub_zero, byte, bit, ← BitVec.getLsbD_eq_getElem hk]
  simp [inWord]

/-- Packed bytes have no bit above their last byte, so the mask of their beat keeps all of them. -/
theorem beatValue_packBytes {bs : List Byte} (h : bs.length ≤ 8) :
    beatValue (BitVec.ofNat 4 bs.length) (packBytes bs) = packBytes bs := by
  apply BitVec.eq_of_getLsbD_eq
  intro i hi
  rw [beatValue, length_toNat h, BitVec.getLsbD_and, lowmask_bit, packBytes, placeBytes_bit, Nat.sub_zero]
  by_cases valid : i < 8 * bs.length
  · simp [valid, hi]
  · have beyond : bs.getD (i / 8) 0 = 0 := List.getD_eq_default bs 0 (by omega)
    rw [beyond]
    simp

/-- The bytes a beat contributes are those packed into it. -/
theorem beatBytes_packBytes {bs : List Byte} (h : bs.length ≤ 8) :
    beatBytes (BitVec.ofNat 4 bs.length) (packBytes bs) = bs := by
  rw [beatBytes, length_toNat h]
  apply List.ext_getElem
  · simp
  · intro i _ hi
    rw [List.getElem_map, List.getElem_range, byteOf_packBytes bs (by omega), ← List.getElem_eq_getD]

/-- Settles O8: a beat's mask and its bytes give back what was packed. -/
theorem assembledBeatCarriesItsBytes : Obligations.AssembledBeatCarriesItsBytes := by
  unfold Obligations.AssembledBeatCarriesItsBytes
  intro bs h
  refine ⟨?_, beatBytes_packBytes h⟩
  rw [assemble, AsmLine.instr, if_pos h, Option.map_some, beatOf, canonical, beatValue_packBytes h]
  rfl

/-! ### `add` is its bytes one after another (R120 to R123) -/

/-- Two counts of bytes added to `total`. -/
theorem total_add_lengths (n : Word) (as bs : List Byte) :
    n + BitVec.ofNat 64 as.length + BitVec.ofNat 64 bs.length = n + BitVec.ofNat 64 (as ++ bs).length := by
  rw [BitVec.add_assoc, ← BitVec.ofNat_add, List.length_append]

/-- Bytes that leave the current word incomplete are placed into the tail behind the pending ones. -/
theorem foldl_addByte_of_lt {bs : List Byte} {s : State} (h : s.tcnt.toNat + bs.length < 8) :
    bs.foldl State.addByte s =
      (s.setTail (s.tail ||| placeBytes s.tcnt.toNat bs) (BitVec.ofNat 3 (s.tcnt.toNat + bs.length))).setTotal
        (s.total + BitVec.ofNat 64 bs.length) := by
  induction bs generalizing s with
  | nil =>
    have tail : s.tail ||| placeBytes s.tcnt.toNat [] = s.tail := BitVec.or_zero
    have tcnt : BitVec.ofNat 3 (s.tcnt.toNat + 0) = s.tcnt := BitVec.ofNat_toNat 3 s.tcnt
    rw [tail, List.length_nil, tcnt, BitVec.add_zero]
    rfl
  | cons b bs ih =>
    rw [List.length_cons] at h
    have room : s.tcnt.toNat < 7 := by omega
    have count : (s.tcnt + 1#3).toNat = s.tcnt.toNat + 1 := tcnt_succ room
    have total : s.total + 1#64 + BitVec.ofNat 64 bs.length = s.total + BitVec.ofNat 64 (b :: bs).length :=
      total_add_lengths s.total [b] bs
    have length : s.tcnt.toNat + 1 + bs.length = s.tcnt.toNat + (b :: bs).length := by
      rw [List.length_cons]; omega
    rw [List.foldl_cons, addByte_of_lt room, ih (by simpa [count] using length ▸ h)]
    simp only [State.setTotal_tail, State.setTail_tail, State.setTotal_tcnt, State.setTail_tcnt,
      State.setTotal_total, count, length, total, placeBytes, BitVec.or_assoc]
    rfl

/-- Bytes that complete the current word compress it and leave an empty tail. -/
theorem foldl_addByte_of_eq {bs : List Byte} {s : State} (h : s.tcnt.toNat + bs.length = 8) :
    bs.foldl State.addByte s =
      ((s.setMix (compressWord (s.tail ||| placeBytes s.tcnt.toNat bs) s.mix)).setTail 0 0).setTotal
        (s.total + BitVec.ofNat 64 bs.length) := by
  have ht := s.tcnt.isLt
  obtain rfl | ⟨front, last, rfl⟩ := List.eq_nil_or_concat' bs
  · rw [List.length_nil] at h
    omega
  · have seven : s.tcnt.toNat + front.length = 7 := by
      rw [List.length_append, List.length_singleton] at h
      omega
    have full : placeBytes s.tcnt.toNat (front ++ [last]) =
        placeBytes s.tcnt.toNat front ||| last.setWidth 64 <<< 56 := by
      rw [placeBytes_append, seven, placeBytes, placeBytes]
      exact congrArg _ BitVec.or_zero
    rw [List.foldl_append, foldl_addByte_of_lt (s := s) (bs := front) (by omega), seven, List.foldl_cons,
      List.foldl_nil, addByte_of_eq rfl, full, ← total_add_lengths, ← BitVec.or_assoc]
    rfl

/-- A byte list of eight is its eight bytes. -/
theorem eq_of_length_eight {g : List Byte} (h : g.length = 8) :
    ∃ b0 b1 b2 b3 b4 b5 b6 b7, g = [b0, b1, b2, b3, b4, b5, b6, b7] := by
  match g, h with
  | [b0, b1, b2, b3, b4, b5, b6, b7], _ => exact ⟨b0, b1, b2, b3, b4, b5, b6, b7, rfl⟩

/-- A byte list is read word by word: eight bytes and the rest, or fewer than eight bytes (R120 step 2). -/
theorem wordByWord {motive : List Byte → Prop} (short : ∀ bs, bs.length < 8 → motive bs)
    (word : ∀ g rest, g.length = 8 → motive rest → motive (g ++ rest)) (bs : List Byte) : motive bs := by
  induction hn : bs.length using Nat.strong_induction_on generalizing bs with
  | _ n ih =>
    obtain h | h : bs.length < 8 ∨ 8 ≤ bs.length := by omega
    · exact short bs h
    · have rest : motive (bs.drop 8) := ih (n - 8) (by omega) _ (by rw [List.length_drop, hn])
      have whole := word (bs.take 8) (bs.drop 8) (by rw [List.length_take]; omega) rest
      rwa [List.take_append_drop] at whole

/-! ### The closed form of what a byte sequence leaves (R122, R123, R148) -/

/-- Message words compressed in order. -/
def compressWords (ws : List Word) (m : Mix) : Mix := ws.foldl (fun m w => compressWord w m) m

/-- Fewer than eight bytes hold no whole word. -/
theorem messageWords_short {bs : List Byte} (h : bs.length < 8) : messageWords bs = [] := by
  rw [messageWords, Nat.div_eq_of_lt h]; rfl

/-- The first word of a message is its first eight bytes, the others are those of the rest (R53). -/
theorem messageWords_word {g : List Byte} (h : g.length = 8) (rest : List Byte) :
    messageWords (g ++ rest) = packBytes g :: messageWords rest := by
  have count : (g ++ rest).length / 8 = rest.length / 8 + 1 := by rw [List.length_append]; omega
  have first : ((g ++ rest).drop (8 * 0)).take 8 = g := List.take_left' h
  have later (w : Nat) : (g ++ rest).drop (8 * (w + 1)) = rest.drop (8 * w) := by
    rw [show 8 * (w + 1) = g.length + 8 * w by omega, List.drop_length_add_append]
  rw [messageWords, count, List.range_succ_eq_map, List.map_cons, List.map_map, first]
  simp only [messageWords, Function.comp_def, Nat.succ_eq_add_one, later]

/-- Fewer than eight bytes are all left over. -/
theorem tailBytes_short {bs : List Byte} (h : bs.length < 8) : tailBytes bs = bs := by
  rw [tailBytes, Nat.div_eq_of_lt h]; rfl

/-- What is left over of a message is left over of the rest behind its first word. -/
theorem tailBytes_word {g : List Byte} (h : g.length = 8) (rest : List Byte) :
    tailBytes (g ++ rest) = tailBytes rest := by
  have offset : 8 * ((g ++ rest).length / 8) = g.length + 8 * (rest.length / 8) := by
    rw [List.length_append]; omega
  rw [tailBytes, offset, List.drop_length_add_append, tailBytes]

/-- The last `N mod 8` bytes. -/
theorem tailBytes_length (bs : List Byte) : (tailBytes bs).length = bs.length % 8 := by
  rw [tailBytes, List.length_drop]; omega

/-- Step 2 of R120 compresses the message's words and returns the bytes beyond them. -/
theorem compressAll_eq (bs : List Byte) (m : Mix) :
    compressAll bs m = (compressWords (messageWords bs) m, tailBytes bs) := by
  induction bs using wordByWord generalizing m with
  | short bs h =>
    rw [compressAll_short bs h, messageWords_short h, tailBytes_short h]; rfl
  | word g rest h ih =>
    rw [messageWords_word h, tailBytes_word h]
    obtain ⟨b0, b1, b2, b3, b4, b5, b6, b7, rfl⟩ := eq_of_length_eight h
    exact ih _

/-- The state that a byte sequence leaves when it begins on an empty tail. -/
def State.ingested (s : State) (bs : List Byte) : State :=
  ((s.setMix (compressWords (messageWords bs) s.mix)).setTail (packBytes (tailBytes bs))
    (BitVec.ofNat 3 (bs.length % 8))).setTotal (s.total + BitVec.ofNat 64 bs.length)

/-- Steps 2 and 3 of R120: the words into the mixing registers, the leftover, if any, into the tail. -/
theorem addWords_eq (s : State) (bs : List Byte) :
    addWords s bs =
      if (tailBytes bs).length = 0 then s.setMix (compressWords (messageWords bs) s.mix)
      else (s.setMix (compressWords (messageWords bs) s.mix)).setTail (packBytes (tailBytes bs))
        (BitVec.ofNat 3 (tailBytes bs).length) := by
  rw [addWords, compressAll_eq]

/-- On an empty tail, these steps have the closed form, `total` apart. -/
theorem addWords_of_empty (bs : List Byte) {s : State} (htail : s.tail = 0) (htcnt : s.tcnt = 0) (n : Word) :
    (addWords s bs).setTotal n = (s.ingested bs).setTotal n := by
  rw [addWords_eq, State.ingested, ← tailBytes_length]
  split
  case isTrue none =>
    have empty : s.setTail 0 0 = s := by rw [← htail, ← htcnt]; rfl
    rw [List.length_eq_zero_iff.1 none]
    nth_rewrite 1 [← empty]
    rfl
  case isFalse => rfl

/-- So has `add` past its checks. -/
theorem addBytes_of_empty (bs : List Byte) {s : State} (htail : s.tail = 0) (htcnt : s.tcnt = 0) :
    s.addBytes bs = s.ingested bs := by
  have zero : ¬ 0 < s.tcnt.toNat := by rw [htcnt]; decide
  rw [State.addBytes, if_neg zero]
  exact addWords_of_empty bs htail htcnt _

/-- So have the bytes one after another. -/
theorem foldl_addByte_of_empty (bs : List Byte) {s : State} (htail : s.tail = 0) (htcnt : s.tcnt = 0) :
    bs.foldl State.addByte s = s.ingested bs := by
  induction bs using wordByWord generalizing s with
  | short bs h =>
    have pack : s.tail ||| placeBytes s.tcnt.toNat bs = packBytes bs := by
      rw [htail, htcnt]; exact BitVec.zero_or
    have zero : s.tcnt.toNat = 0 := by rw [htcnt]; rfl
    rw [foldl_addByte_of_lt (by omega), pack, zero, Nat.zero_add, State.ingested, messageWords_short h,
      tailBytes_short h, Nat.mod_eq_of_lt h]
    rfl
  | word g rest h ih =>
    have pack : s.tail ||| placeBytes s.tcnt.toNat g = packBytes g := by
      rw [htail, htcnt]; exact BitVec.zero_or
    have count : (g ++ rest).length % 8 = rest.length % 8 := by rw [List.length_append]; omega
    have zero : s.tcnt.toNat = 0 := by rw [htcnt]; rfl
    rw [List.foldl_append, foldl_addByte_of_eq (s := s) (bs := g) (by omega), pack, ih rfl rfl, State.ingested,
      State.ingested, messageWords_word h, tailBytes_word h, count, ← total_add_lengths]
    rfl

/-- Step 1 of R120 with too few bytes to complete the word: all of them go into the tail. -/
theorem topUpTail_of_lt {s : State} {bs : List Byte} (h : s.tcnt.toNat + bs.length < 8) :
    topUpTail s bs =
      (s.setTail (s.tail ||| placeBytes s.tcnt.toNat bs) (BitVec.ofNat 3 (s.tcnt.toNat + bs.length)), []) := by
  have taken : min bs.length (8 - s.tcnt.toNat) = bs.length := Nat.min_eq_left (by omega)
  have incomplete : s.tcnt.toNat + bs.length ≠ 8 := by omega
  simp only [topUpTail, taken, incomplete, if_false, List.take_length, List.drop_length]

/-- Step 1 of R120 with enough bytes: the word they complete is compressed, the bytes beyond it are left. -/
theorem topUpTail_of_le {s : State} {bs : List Byte} (h : 8 ≤ s.tcnt.toNat + bs.length) :
    topUpTail s bs =
      ((s.setMix (compressWord (s.tail ||| placeBytes s.tcnt.toNat (bs.take (8 - s.tcnt.toNat))) s.mix)).setTail 0 0,
        bs.drop (8 - s.tcnt.toNat)) := by
  have ht := s.tcnt.isLt
  have taken : min bs.length (8 - s.tcnt.toNat) = 8 - s.tcnt.toNat := Nat.min_eq_right (by omega)
  have complete : s.tcnt.toNat + (8 - s.tcnt.toNat) = 8 := by omega
  simp only [topUpTail, taken, complete, if_true]

/-- `add` past its checks is its bytes one after another (R123 (a)): on an empty tail by the closed form of both; else
the bytes that top up the tail go first, and what they leave is short of a word or empty. -/
theorem addBytes_eq_foldl {s : State} (clean : TailClean s) (bs : List Byte) :
    s.addBytes bs = bs.foldl State.addByte s := by
  have ht := s.tcnt.isLt
  obtain zero | pending : s.tcnt.toNat = 0 ∨ 0 < s.tcnt.toNat := by omega
  · have htcnt : s.tcnt = 0 := BitVec.eq_of_toNat_eq zero
    have htail := tail_of_tailClean_zero clean htcnt
    rw [addBytes_of_empty bs htail htcnt, foldl_addByte_of_empty bs htail htcnt]
  · rw [State.addBytes, if_pos pending]
    obtain short | full : s.tcnt.toNat + bs.length < 8 ∨ 8 ≤ s.tcnt.toNat + bs.length := by omega
    · rw [topUpTail_of_lt short, foldl_addByte_of_lt short]
      rfl
    · have filling : s.tcnt.toNat + (bs.take (8 - s.tcnt.toNat)).length = 8 := by rw [List.length_take]; omega
      have total := total_add_lengths s.total (bs.take (8 - s.tcnt.toNat)) (bs.drop (8 - s.tcnt.toNat))
      have cut : bs.take (8 - s.tcnt.toNat) ++ bs.drop (8 - s.tcnt.toNat) = bs := List.take_append_drop _ bs
      have bytes : bs.foldl State.addByte s = (bs.drop (8 - s.tcnt.toNat)).foldl State.addByte
          ((bs.take (8 - s.tcnt.toNat)).foldl State.addByte s) := by rw [← List.foldl_append, cut]
      rw [cut] at total
      rw [topUpTail_of_le full, bytes, foldl_addByte_of_eq filling, foldl_addByte_of_empty _ rfl rfl, ← total]
      exact addWords_of_empty _ rfl rfl _

/-! ### Chunks and beats (R120, R124, R127) -/

/-- A core that takes message bytes: an active engine, no fault, and the clean tail of INV3 (R32). -/
structure Ingesting (s : State) : Prop where
  fault : s.fault = false
  phase : s.phase = .active
  clean : TailClean s

/-- A byte leaves the core ready for more. -/
theorem Ingesting.addByte {s : State} (h : Ingesting s) (b : Byte) : Ingesting (s.addByte b) := by
  obtain ⟨efault, ephase, -, -, -⟩ := addByte_rest s b
  exact ⟨efault.trans h.fault, ephase.trans h.phase, addByte_clean h.clean b⟩

/-- So do bytes one after another. -/
theorem Ingesting.foldl_addByte {s : State} (h : Ingesting s) (bs : List Byte) :
    Ingesting (bs.foldl State.addByte s) :=
  List.foldlRecOn bs State.addByte h fun _ ht b _ => ht.addByte b

/-- `add` is its bytes one after another. -/
theorem Ingesting.add_eq_foldl {s : State} (h : Ingesting s) (bs : List Byte) :
    s.add bs = bs.foldl State.addByte s := by
  rw [add_active bs h.fault h.phase, addBytes_eq_foldl h.clean]

/-- The effect of a beat is its bytes one after another, by induction on their number. -/
theorem absorbBeat_eq_foldl {s : State} (clean : TailClean s) {len : BitVec 4} (hl : len.toNat ≤ 8) (d0 : Word) :
    s.absorbBeat len d0 = (beatBytes len d0).foldl State.addByte s := by
  have byLength : ∀ n ≤ 8, s.absorbBeat (BitVec.ofNat 4 n) d0 =
      ((List.range n).map (byteOf d0)).foldl State.addByte s := by
    intro n
    induction n with
    | zero => exact fun _ => absorbBeat_zero s d0
    | succ n ih =>
      intro hn
      rw [absorbBeat_succ clean d0 (by omega), ih (by omega), List.range_succ, List.map_append, List.foldl_append]
      rfl
  simpa [beatBytes] using byLength len.toNat hl

/-- `ABSORB` is the bytes of its beat one after another. -/
theorem Ingesting.runInstr_absorb_eq_foldl {s : State} (h : Ingesting s) {len : BitVec 4} (hl : len.toNat ≤ 8)
    (d0 : Word) : runInstr s (.absorb len d0) = (beatBytes len d0).foldl State.addByte s := by
  rw [runInstr_absorb_active d0 hl h.fault h.phase, absorbBeat_eq_foldl h.clean hl]

/-- Operations that each take in some bytes, one after another, take in all of them. -/
theorem Ingesting.foldl_eq_foldl_addByte {α : Type} {op : State → α → State} {bytes : α → List Byte} {xs : List α}
    (each : ∀ x ∈ xs, ∀ s, Ingesting s → op s x = (bytes x).foldl State.addByte s) {s : State} (h : Ingesting s) :
    xs.foldl op s = (xs.map bytes).flatten.foldl State.addByte s := by
  induction xs generalizing s with
  | nil => rfl
  | cons x xs ih =>
    have first := each x List.mem_cons_self s h
    have others (y) (hy : y ∈ xs) := each y (List.mem_cons_of_mem x hy)
    rw [List.foldl_cons, first, ih others (h.foldl_addByte _), List.map_cons, List.flatten_cons, List.foldl_append]

/-- Chunks added one after another are one `add` of the whole. -/
theorem Ingesting.foldl_add {s : State} (h : Ingesting s) (chunks : List (List Byte)) :
    chunks.foldl State.add s = s.add chunks.flatten := by
  have bytewise := h.foldl_eq_foldl_addByte (op := State.add) (bytes := id) (xs := chunks)
    fun bs _ t ht => ht.add_eq_foldl bs
  rw [bytewise, List.map_id, h.add_eq_foldl]

/-- Beats are one `add` of their message. -/
theorem Ingesting.runInstrs_beats {s : State} (h : Ingesting s) {beats : List (BitVec 4 × Word)}
    (legal : LegalBeats beats) : runInstrs s (beatsInstrs beats) = s.add (beatsMessage beats) := by
  have bytewise := h.foldl_eq_foldl_addByte (op := fun t b => runInstr t (.absorb b.1 b.2))
    (bytes := fun b => beatBytes b.1 b.2) (xs := beats) fun b hb t ht => ht.runInstr_absorb_eq_foldl (legal b hb) b.2
  rw [runInstrs, beatsInstrs, List.foldl_map, bytewise, h.add_eq_foldl, beatsMessage]

/-- Settles O31: chunks and beats alike are their bytes one after another. -/
theorem chunkingInvariance : Obligations.ChunkingInvariance := by
  unfold Obligations.ChunkingInvariance
  intro s hf hp clean
  have h : Ingesting s := ⟨hf, hp, clean⟩
  exact ⟨h.foldl_add, fun beats legal => h.runInstrs_beats legal⟩

/-- A new engine takes message bytes. -/
theorem Ingesting.construct {s : State} (hf : s.fault = false) (k0 k1 : Word) : Ingesting (s.construct k0 k1) :=
  ⟨hf, rfl, BitVec.zero_ushiftRight⟩

/-- A message cut into beats leaves the closed form of R123 (b) on a new engine. -/
theorem runInstrs_init_beats {s : State} (hf : s.fault = false) (k0 k1 : Word) {beats : List (BitVec 4 × Word)}
    (legal : LegalBeats beats) :
    runInstrs s (.init k0 k1 :: beatsInstrs beats) = (s.construct k0 k1).ingested (beatsMessage beats) := by
  have engine := Ingesting.construct hf k0 k1
  calc runInstrs s (.init k0 k1 :: beatsInstrs beats)
      = runInstrs (s.construct k0 k1) (beatsInstrs beats) := by rw [← runInstr_init k0 k1 hf]; rfl
    _ = (s.construct k0 k1).add (beatsMessage beats) := engine.runInstrs_beats legal
    _ = (s.construct k0 k1).ingested (beatsMessage beats) := by
      rw [add_active _ engine.fault engine.phase, addBytes_of_empty _ rfl rfl]

/-- Settles O32: the registers of the closed form, the counts as numbers. -/
theorem ingestionClosedForm : Obligations.IngestionClosedForm := by
  unfold Obligations.IngestionClosedForm
  intro s k0 k1 beats hf legal
  simp only [runInstrs_init_beats hf k0 k1 legal]
  generalize beatsMessage beats = msg
  have tcnt : (BitVec.ofNat 3 (msg.length % 8)).toNat = msg.length % 8 := by rw [BitVec.toNat_ofNat]; omega
  have total : (0#64 + BitVec.ofNat 64 msg.length).toNat = msg.length % 2 ^ 64 := by
    rw [BitVec.zero_add, BitVec.toNat_ofNat]
  exact ⟨rfl, rfl, tcnt, total, rfl, rfl, hf, rfl, rfl⟩

/-! ### The host's moves in order (R59, R194) -/

/-- A run goes on where its first step ends. -/
theorem core_run_succ {s t : State} (k : Nat) (h : step s = .next t) :
    Host.Core.run core (k + 1) s = Host.Core.run core k t := by
  have first : core.step s = .next t := h
  simp only [Host.Core.run, first]

/-- Settles O11, by induction on the moves: a step makes the first of them, and none reads those still pending. -/
theorem stepsFollowTheHostsMoves : Obligations.StepsFollowTheHostsMoves := by
  unfold Obligations.StepsFollowTheHostsMoves
  intro ms rest
  induction ms with
  | nil =>
    rintro s rfl
    rfl
  | cons m ms ih =>
    intro s hs
    have first : step s = .next ((runMove s m).setHost (ms ++ rest)) := step_move s m (ms ++ rest) hs
    have others := ih ((runMove s m).setHost (ms ++ rest)) rfl
    rw [runMoves_setHost] at others
    exact (core_run_succ ms.length first).trans others

/-! ### Clock cycles (R191, R198) -/

/-- Moves made in two runs, one behind the other. -/
theorem runMoves_append (s : State) (ms ns : List HostMove) :
    runMoves s (ms ++ ns) = runMoves (runMoves s ms) ns := List.foldl_append

theorem settled_of_idle {p : PortState} (h : p.busy = none) : p.settled = p.core := by
  simp [PortState.settled, h]

theorem settled_of_busy {p : PortState} {f : InFlight} (h : p.busy = some f) :
    p.settled = runWord p.core f.word := by
  simp [PortState.settled, h]

/-- The command in progress, abandoned or not, leaves nothing behind a reset (R191). -/
theorem resetCycle_settled (p : PortState) (pins : Pins) : (resetCycle p pins).settled = p.settled.applyReset := by
  have host : p.settled.host = p.core.host := by
    cases h : p.busy with
    | none => rw [settled_of_idle h]
    | some f => rw [settled_of_busy h, runWord, runInstr_host]
  rw [State.applyReset, host]
  rfl

/-- A busy cycle brings the command in progress nearer to its end or makes its writes: it settles to the same (R198). -/
theorem busyCycle_settled {p : PortState} {f : InFlight} (h : p.busy = some f) (pins : Pins) :
    (busyCycle f p pins).settled = p.settled := by
  rw [settled_of_busy h, busyCycle]
  cases f.left <;> rfl

/-- An accepted word settles to its command's result, whatever its busy time (R198). -/
theorem readyCycle_settled (c : Config) {p : PortState} (h : p.busy = none) (pins : Pins) :
    (readyCycle c p pins).settled = if pins.cmdValid then runWord p.settled pins.cmdWord else p.settled := by
  rw [settled_of_idle h, readyCycle]
  split
  · cases busyTime c pins.cmdWord p.core with
    | zero => exact settled_of_idle h
    | succ n => rfl
  · exact settled_of_idle h

/-- One cycle that the host's duty allows makes its moves on the settled registers. -/
theorem cycle_settled {c : Config} {pins : Pins} {p q : PortState} (h : cycle c pins p = .next q) :
    q.settled = runMoves p.settled (cycleMoves c p pins) := by
  obtain ⟨hr, e⟩ | ⟨-, -, e⟩ | ⟨hr, -, ⟨f, hf, e⟩ | ⟨hf, e⟩⟩ := cycle_cases c pins p <;>
    rw [e] at h <;> cases h
  · have moves : cycleMoves c p pins = [.reset] := by simp [cycleMoves, hr]
    rw [moves, resetCycle_settled]
    rfl
  · have moves : cycleMoves c p pins = [] := by simp [cycleMoves, accepts, PortState.cmdReady, hr, hf]
    rw [moves, busyCycle_settled hf]
    rfl
  · have moves : cycleMoves c p pins = if pins.cmdValid then [.command pins.cmdWord] else [] := by
      simp [cycleMoves, accepts, PortState.cmdReady, hr, hf]
    rw [moves, readyCycle_settled c hf]
    cases pins.cmdValid <;> rfl

/-- Cycles that answer are a first cycle that answers and the others after it, and so are the moves made in them. -/
theorem cycles_cons_inversion {c : Config} {pins : Pins} {ps : List Pins} {p q : PortState}
    (h : cycles c (pins :: ps) p = .next q) :
    ∃ r, cycle c pins p = .next r ∧ cycles c ps r = .next q ∧
      cyclesMoves c (pins :: ps) p = cycleMoves c p pins ++ cyclesMoves c ps r := by
  rw [cycles] at h
  cases e : cycle c pins p with
  | next r =>
    rw [e] at h
    exact ⟨r, rfl, h, by rw [cyclesMoves, e]⟩
  | fault r => exact nomatch r
  | refused r =>
    rw [e] at h
    cases h

/-- Cycles make their moves on the settled registers, one after another. -/
theorem cycles_settled {c : Config} {ps : List Pins} {p q : PortState} (h : cycles c ps p = .next q) :
    q.settled = runMoves p.settled (cyclesMoves c ps p) := by
  induction ps generalizing p with
  | nil =>
    cases h
    rfl
  | cons pins ps ih =>
    obtain ⟨r, first, others, moves⟩ := cycles_cons_inversion h
    rw [moves, runMoves_append, ← cycle_settled first]
    exact ih others

/-- Settles O55: with no command in progress the registers are the settled ones, and the ports show them. -/
theorem cyclesRefineTheRun : Obligations.CyclesRefineTheRun := by
  unfold Obligations.CyclesRefineTheRun
  intro c ps p q h
  have settled := cycles_settled h
  refine ⟨settled, fun ready => ⟨?_, ?_⟩⟩
  · rw [← settled, settled_of_idle ((cmdReady_iff q).1 ready)]
  · rw [sampledPorts, if_pos ready]

end Sys2Proof.Machine

namespace Sys2Proof.Machine

/-!
The statements on the encoding (spec/30_encoding.md): the fields a word carries, the words and terms that are `ILLEGAL`, and
what a command does not read; then the expansions of R80, as beats whose message is the pseudo-instruction's operand, with
what they leave in the registers and the rounds they cost.
-/

/-! ### The fields of a word (R70, R71) -/

/-- The number of a word is that of its four fields (R70). -/
theorem toNat_eq_fields (w : CmdWord) :
    w.toNat = (opField w).toNat * 2 ^ 132 + (lenField w).toNat * 2 ^ 128 + (d1Field w).toNat * 2 ^ 64 +
      (d0Field w).toNat := by
  rw [opField_toNat, lenField_toNat, d1Field_toNat, d0Field_toNat]
  omega

/-- Settles O2: a word is determined by the number of its fields, and the decoder is known on a packed word. -/
theorem decodeReadsTheFields : Obligations.DecodeReadsTheFields := by
  unfold Obligations.DecodeReadsTheFields
  refine ⟨fun w => ⟨_, _, _, _, toNat_eq_fields w⟩, fun w op len d1 d0 h => ?_⟩
  have packed : w = packFields op len d1 d0 := BitVec.eq_of_toNat_eq (h.trans (packFields_toNat op len d1 d0).symm)
  rw [packed, decode_packFields]

/-- Settles O1, by evaluation of the decoder on each of the seven words. -/
theorem specWordsDecode : Obligations.SpecWordsDecode := by
  unfold Obligations.SpecWordsDecode
  decide

/-! ### The `ILLEGAL` encodings (R77, R162) -/

/-- The fields of an `ILLEGAL` encoding, as R77 lists them. -/
theorem illegalFields_iff (op len : BitVec 4) :
    illegalFields op len = true ↔ op = 0 ∨ 4 ≤ op.toNat ∨ (op = 2 ∧ 9 ≤ len.toNat) := by
  simp [illegalFields, or_assoc]

/-- They are the fields that no other command has (R71). -/
theorem illegalFields_iff_no_command (op len : BitVec 4) :
    illegalFields op len = true ↔ op ≠ 1 ∧ (op = 2 → 8 < len.toNat) ∧ op ≠ 3 := by
  rw [illegalFields_iff]
  bv_omega

/-- A packed word with such fields decodes to them (R77). -/
theorem decode_packFields_illegal {op len : BitVec 4} (h : illegalFields op len = true) (d1 d0 : Word) :
    decode (packFields op len d1 d0) = .illegal op len := by
  obtain ⟨notInit, tooLong, notFinal⟩ := (illegalFields_iff_no_command op len).1 h
  rw [decode_packFields, if_neg notInit, if_neg notFinal]
  split
  case isTrue absorb => rw [if_neg (Nat.not_le.2 (tooLong absorb))]
  case isFalse => rfl

/-- Everything a word can decode to (R71): one of the three commands, or `ILLEGAL` with its own fields. -/
theorem decode_cases (w : CmdWord) :
    (opField w = 1 ∧ decode w = .init (d0Field w) (d1Field w)) ∨
    (opField w = 2 ∧ (lenField w).toNat ≤ 8 ∧ decode w = .absorb (lenField w) (d0Field w)) ∨
    (opField w = 3 ∧ decode w = .final) ∨
    (illegalFields (opField w) (lenField w) = true ∧ decode w = .illegal (opField w) (lenField w)) := by
  have decoded : decode w = decode (packFields (opField w) (lenField w) (d1Field w) (d0Field w)) :=
    congrArg decode (BitVec.eq_of_toNat_eq ((toNat_eq_fields w).trans (packFields_toNat ..).symm))
  by_cases init : opField w = 1
  · exact .inl ⟨init, by rw [decoded, decode_packFields, if_pos init]⟩
  by_cases absorb : opField w = 2 ∧ (lenField w).toNat ≤ 8
  · obtain ⟨op, len⟩ := absorb
    exact .inr (.inl ⟨op, len, by rw [decoded, decode_packFields, if_neg init, if_pos op, if_pos len]⟩)
  by_cases final : opField w = 3
  · exact .inr (.inr (.inl ⟨final, by rw [decoded, decode_packFields, final]; rfl⟩))
  have illegal : illegalFields (opField w) (lenField w) = true :=
    (illegalFields_iff_no_command _ _).2 ⟨init, fun op => Nat.lt_of_not_le fun len => absorb ⟨op, len⟩, final⟩
  exact .inr (.inr (.inr ⟨illegal, by rw [decoded, decode_packFields_illegal illegal]⟩))

/-- A word is `ILLEGAL` exactly by its two fields (R77). -/
theorem decode_illegal_iff (w : CmdWord) :
    (∃ op len, decode w = .illegal op len) ↔ illegalFields (opField w) (lenField w) = true := by
  obtain ⟨op, e⟩ | ⟨op, len, e⟩ | ⟨op, e⟩ | ⟨fields, e⟩ := decode_cases w
  · simp [e, op, illegalFields]
  · have short : ¬ 8 < (lenField w).toNat := Nat.not_lt.2 len
    simp [e, op, illegalFields_iff_no_command, short]
  · simp [e, op, illegalFields]
  · exact iff_of_true ⟨_, _, e⟩ fields

/-- Settles O4, by what a word can decode to. -/
theorem everyWordDecodesWellFormed : Obligations.EveryWordDecodesWellFormed := by
  unfold Obligations.EveryWordDecodesWellFormed
  intro w
  obtain ⟨-, e⟩ | ⟨-, len, e⟩ | ⟨-, e⟩ | ⟨fields, e⟩ := decode_cases w <;> rw [e]
  · rfl
  · exact decide_eq_true len
  · rfl
  · exact fields

/-- Settles O5: the words by their two fields as numbers, the effect by fault entry. -/
theorem illegalEncodingsRaiseIllegalCmd : Obligations.IllegalEncodingsRaiseIllegalCmd := by
  unfold Obligations.IllegalEncodingsRaiseIllegalCmd
  intro w
  have raises (op len : BitVec 4) (s : State) (hf : s.fault = false) :
      exec (.illegal op len) s = .next { s with fault := true, fcause := 1 } := by
    rw [exec_eq_next, runInstr_illegal op len hf]; rfl
  refine ⟨?_, ?_, raises⟩
  · rw [decode_illegal_iff, illegalFields_iff, ← opField_toNat, ← lenField_toNat]
    bv_omega
  · rintro ⟨op, len, e⟩ s
    exact ⟨fun hf => e ▸ raises op len s hf, fun hf => by rw [exec_eq_next, runInstr_faulted _ hf]⟩

/-! ### Encoding and unused fields (R73 to R76, R79) -/

/-- Settles O3, by the four commands; the fields of a well-formed `illegal` are those of an `ILLEGAL` encoding. -/
theorem decodeOfEncodeIsTheCommand : Obligations.DecodeOfEncodeIsTheCommand := by
  unfold Obligations.DecodeOfEncodeIsTheCommand
  intro i wf
  cases i with
  | init k0 k1 => exact decode_packFields opInit 0 k1 k0
  | absorb len d0 =>
    have legal : len.toNat ≤ 8 := of_decide_eq_true wf
    calc decode (encode (.absorb len d0))
        = if len.toNat ≤ 8 then .absorb len d0 else .illegal opAbsorb len := decode_packFields opAbsorb len 0 d0
      _ = .absorb len d0 := if_pos legal
  | final => exact decode_packFields opFinal 0 0 0
  | illegal op len => exact decode_packFields_illegal wf 0 0

/-- A beat that is masked already is left as it is. -/
theorem beatValue_beatValue (len : BitVec 4) (d0 : Word) : beatValue len (beatValue len d0) = beatValue len d0 := by
  rw [beatValue, beatValue, BitVec.and_assoc, BitVec.and_self]

/-- `ABSORB` reads its data through the mask alone (R74, R126). -/
theorem exec_absorb_beatValue (len : BitVec 4) (d0 : Word) (s : State) :
    exec (.absorb len (beatValue len d0)) s = exec (.absorb len d0) s := by
  simp only [exec, execAbsorb, State.absorbBeat, beatValue_beatValue]

/-- Settles O6, format by format; an opcode 3 in the last clause is `FINAL` on both sides. -/
theorem unusedFieldsHaveNoEffect : Obligations.UnusedFieldsHaveNoEffect := by
  unfold Obligations.UnusedFieldsHaveNoEffect
  have final (len : BitVec 4) (d1 d0 : Word) : decode (packFields 0x3 len d1 d0) = .final :=
    decode_packFields 3 len d1 d0
  refine ⟨fun len k1 k0 => decode_packFields 1 len k1 k0, final, ?_, ?_⟩
  · intro len d1 d0 s legal
    have absorb (d1 d0 : Word) : decode (packFields 0x2 len d1 d0) = .absorb len d0 :=
      (decode_packFields 2 len d1 d0).trans (if_pos legal)
    rw [absorb, absorb]
    exact (exec_absorb_beatValue len d0 s).symm
  · intro op len d1 d0 notInit tooLong
    by_cases h : op = 3
    · rw [h, final, final]
    · have illegal := (illegalFields_iff_no_command op len).2 ⟨notInit, tooLong, h⟩
      rw [decode_packFields_illegal illegal, decode_packFields_illegal illegal]

/-- The canonical form of a well-formed command is well-formed (R76). -/
theorem canonical_wf {i : Instr} (wf : i.wf = true) : (canonical i).wf = true := by
  cases i <;> exact wf

/-- Settles O7: the canonical command is well-formed, and differs only in bytes that the beat masks. -/
theorem canonicalWordDoesTheSame : Obligations.CanonicalWordDoesTheSame := by
  unfold Obligations.CanonicalWordDoesTheSame
  intro i wf
  refine ⟨decodeOfEncodeIsTheCommand _ (canonical_wf wf), fun s => ?_⟩
  cases i with
  | init k0 k1 => rfl
  | absorb len d0 => exact exec_absorb_beatValue len d0 s
  | final => rfl
  | illegal op len => rfl

/-! ### The beats of an expansion (R80) -/

/-- Fewer than eight bytes are one group, if there are any. -/
theorem groups_short {bs : List Byte} (h : bs.length < 8) (nonempty : bs ≠ []) : groups bs = [bs] := by
  rw [groups]
  · rintro b0 b1 b2 b3 b4 b5 b6 b7 rest rfl
    simp at h
    omega
  · exact nonempty

/-- Each full group of eight comes first. -/
theorem groups_word {g : List Byte} (h : g.length = 8) (rest : List Byte) : groups (g ++ rest) = g :: groups rest := by
  obtain ⟨b0, b1, b2, b3, b4, b5, b6, b7, rfl⟩ := eq_of_length_eight h
  rfl

/-- The groups are the bytes, cut at most eight at a time. -/
theorem groups_flatten (bs : List Byte) : (∀ g ∈ groups bs, g.length ≤ 8) ∧ (groups bs).flatten = bs := by
  induction bs using wordByWord with
  | short bs h =>
    by_cases none : bs = []
    · subst none
      exact ⟨nofun, rfl⟩
    · rw [groups_short h none]
      exact ⟨by simpa using h.le, List.flatten_singleton⟩
  | word g rest h ih =>
    obtain ⟨lengths, bytes⟩ := ih
    rw [groups_word h, List.flatten_cons, bytes]
    exact ⟨List.forall_mem_cons.2 ⟨h.le, lengths⟩, rfl⟩

/-- Groups of at most eight bytes, assembled to beats, are legal beats with the bytes as their message (R79). -/
theorem beats_of_groups {gs : List (List Byte)} (short : ∀ g ∈ gs, g.length ≤ 8) :
    ∃ beats, LegalBeats beats ∧ beatsMessage beats = gs.flatten ∧ gs.map beatOf = beatsInstrs beats := by
  refine ⟨gs.map fun g => (BitVec.ofNat 4 g.length, packBytes g), ?_, ?_, ?_⟩
  · intro b hb
    obtain ⟨g, hg, rfl⟩ := List.mem_map.1 hb
    exact (length_toNat (short g hg)).trans_le (short g hg)
  · have bytes : gs.map (fun g => beatBytes (BitVec.ofNat 4 g.length) (packBytes g)) = gs :=
      (List.map_congr_left fun g hg => beatBytes_packBytes (short g hg)).trans (List.map_id gs)
    rw [beatsMessage, List.map_map]
    exact congrArg List.flatten bytes
  · rw [beatsInstrs, List.map_map]
    rfl

/-- `ADD` expands to legal beats with its bytes as their message, at least one beat (R80). -/
theorem expandAdd_eq_beats (bs : List Byte) :
    ∃ beats, LegalBeats beats ∧ beatsMessage beats = bs ∧ expandAdd bs = beatsInstrs beats ∧ beats ≠ [] := by
  by_cases none : bs = []
  · subst none
    exact ⟨[(0, 0)], List.forall_mem_singleton.2 (Nat.zero_le 8), rfl, rfl, nofun⟩
  · obtain ⟨short, bytes⟩ := groups_flatten bs
    obtain ⟨beats, legal, message, expansion⟩ := beats_of_groups short
    refine ⟨beats, legal, message.trans bytes, ?_, ?_⟩
    · rw [expandAdd, if_neg (List.length_eq_zero_iff.not.2 none), expansion]
    · rintro rfl
      exact none (bytes.symm.trans message.symm)

/-! ### What the pseudo-instructions leave (R80, R120, R148) -/

/-- One sequence of commands behind another. -/
theorem runInstrs_append (s : State) (is js : List Instr) :
    runInstrs s (is ++ js) = runInstrs (runInstrs s is) js := List.foldl_append

/-- Outside `phase = ACTIVE` the first beat raises the cause that `add` raises, and the others are ignored (R164, R167,
R172). -/
theorem runInstrs_beats_raise {s : State} (hf : s.fault = false) {c : Cause}
    (raises : ∀ effect, whenActive s .absorbAfterFinal effect = s.raiseFault c) {beats : List (BitVec 4 × Word)}
    (legal : LegalBeats beats) (nonempty : beats ≠ []) : runInstrs s (beatsInstrs beats) = s.raiseFault c := by
  obtain ⟨b, rest, rfl⟩ := List.exists_cons_of_ne_nil nonempty
  have first : runInstr s (.absorb b.1 b.2) = s.raiseFault c := by
    rw [runInstr_absorb b.2 hf (legal b List.mem_cons_self), raises]
  calc runInstrs s (beatsInstrs (b :: rest))
      = runInstrs (s.raiseFault c) (beatsInstrs rest) := by rw [← first]; rfl
    _ = s.raiseFault c := runInstrs_faulted _ _ rfl

/-- Beats, at least one, are one `add` of their message in every `phase`, faults included. -/
theorem runInstrs_beats_eq_add {s : State} (clean : TailClean s) {beats : List (BitVec 4 × Word)}
    (legal : LegalBeats beats) (nonempty : beats ≠ []) :
    runInstrs s (beatsInstrs beats) = s.add (beatsMessage beats) := by
  cases hf : s.fault with
  | true => rw [runInstrs_faulted _ s hf, State.add, if_pos hf]
  | false =>
    have add : s.add (beatsMessage beats) =
        whenActive s .absorbAfterFinal fun s => s.addBytes (beatsMessage beats) := by simp [State.add, hf]
    cases hp : s.phase with
    | empty =>
      rw [add, whenActive_empty _ _ hp]
      exact runInstrs_beats_raise hf (fun _ => whenActive_empty _ _ hp) legal nonempty
    | active => exact Ingesting.runInstrs_beats ⟨hf, hp, clean⟩ legal
    | done =>
      rw [add, whenActive_done _ _ hp]
      exact runInstrs_beats_raise hf (fun _ => whenActive_done _ _ hp) legal nonempty

/-- Fewer than eight packed bytes leave the top byte free, so the count is ORed in as it is added (R141). -/
theorem paddedWord_packBytes {bs : List Byte} (h : bs.length < 8) (total : Word) :
    paddedWord (packBytes bs) total = packBytes bs + BitVec.ofNat 64 (total.toNat % 256 * 2 ^ 56) := by
  have count : BitVec.ofNat 64 (total.toNat % 256) <<< 56 = BitVec.ofNat 64 (total.toNat % 256 * 2 ^ 56) := by
    apply BitVec.eq_of_toNat_eq
    rw [BitVec.toNat_shiftLeft, Nat.shiftLeft_eq, BitVec.toNat_ofNat, BitVec.toNat_ofNat]
    omega
  have apart : packBytes bs &&& BitVec.ofNat 64 (total.toNat % 256) <<< 56 = 0#64 := by
    apply BitVec.eq_of_getLsbD_eq
    intro i hi
    rw [BitVec.getLsbD_and, BitVec.getLsbD_shiftLeft, packBytes, placeBytes_bit, Nat.sub_zero]
    by_cases top : i < 56
    · simp [top]
    · have beyond : bs.getD (i / 8) 0 = 0 := List.getD_eq_default bs 0 (by omega)
      rw [beyond]
      simp
  rw [paddedWord, lowByte_word, ← BitVec.add_eq_or_of_and_eq_zero _ _ apart, count]

/-- The padded word of a message taken in by a new engine (R141, R148). -/
theorem paddedWord_ingested (s : State) (k0 k1 : Word) (bs : List Byte) :
    paddedWord ((s.construct k0 k1).ingested bs).tail ((s.construct k0 k1).ingested bs).total = messagePadding bs := by
  have left : (tailBytes bs).length < 8 := by rw [tailBytes_length]; omega
  have total : (0#64 + BitVec.ofNat 64 bs.length).toNat % 256 = bs.length % 256 := by
    rw [BitVec.zero_add, BitVec.toNat_ofNat]
    omega
  calc paddedWord ((s.construct k0 k1).ingested bs).tail ((s.construct k0 k1).ingested bs).total
      = paddedWord (packBytes (tailBytes bs)) (0#64 + BitVec.ofNat 64 bs.length) := rfl
    _ = messagePadding bs := by rw [paddedWord_packBytes left, total, messagePadding]

/-- `FINAL` on a message taken in by a new engine gives the function of R148. -/
theorem finalize_ingested_digest (s : State) (k0 k1 : Word) (bs : List Byte) :
    ((s.construct k0 k1).ingested bs).finalize.digest = sipHash24 k0 k1 bs := by
  calc ((s.construct k0 k1).ingested bs).finalize.digest
      = (finalRounds (compressWord
          (paddedWord ((s.construct k0 k1).ingested bs).tail ((s.construct k0 k1).ingested bs).total)
          (compressWords (messageWords bs) (keyedMix k0 k1)))).fold := rfl
    _ = sipHash24 k0 k1 bs := by rw [paddedWord_ingested]; rfl

/-- A message cut into beats and finished, on any unfaulted core. -/
theorem runInstrs_init_beats_final {s : State} (hf : s.fault = false) (k0 k1 : Word) {beats : List (BitVec 4 × Word)}
    (legal : LegalBeats beats) :
    runInstrs s (.init k0 k1 :: beatsInstrs beats ++ [.final]) =
      ((s.construct k0 k1).ingested (beatsMessage beats)).finalize := by
  have fault : ((s.construct k0 k1).ingested (beatsMessage beats)).fault = false := hf
  rw [runInstrs_append, runInstrs_init_beats hf k0 k1 legal]
  exact (runInstr_final fault).trans (whenActive_active _ _ rfl)

/-- Settles O40: each expansion is a list of legal beats with the operand as its message. -/
theorem pseudoInstructionsPerformTheirOperations : Obligations.PseudoInstructionsPerformTheirOperations := by
  unfold Obligations.PseudoInstructionsPerformTheirOperations
  refine ⟨?_, ?_, ?_⟩
  · intro s bs clean
    obtain ⟨beats, legal, rfl, expansion, nonempty⟩ := expandAdd_eq_beats bs
    rw [Pseudo.expand, expansion, runInstrs_beats_eq_add clean legal nonempty]
  · intro s b clean
    have short : ∀ g ∈ [[b]], g.length ≤ 8 := by simp
    obtain ⟨beats, legal, message, expansion⟩ := beats_of_groups short
    have nonempty : beats ≠ [] := by rintro rfl; cases message
    calc runInstrs s (Pseudo.addb b).expand
        = runInstrs s (beatsInstrs beats) := congrArg (runInstrs s) expansion
      _ = s.add [b] := by rw [runInstrs_beats_eq_add clean legal nonempty, message]; rfl
  · intro s k0 k1 bs hf
    obtain ⟨beats, legal, rfl, expansion, -⟩ := expandAdd_eq_beats bs
    rw [Pseudo.expand, expansion, runInstrs_init_beats_final hf k0 k1 legal]
    exact ⟨rfl, hf, finalize_ingested_digest s k0 k1 _⟩

/-! ### Rounds (R105, R106, R204) -/

/-- An ignored command runs no round. -/
theorem countedExec_faulted {s : State} (i : Instr) (hf : s.fault = true) : countedExec i s = ⟨s.mix, 0⟩ := by
  simp [countedExec, hf]

/-- A beat runs the rounds of one word if it completes one, where the command is legal. -/
theorem countedExec_absorb {s : State} (len : BitVec 4) (d0 : Word) (hf : s.fault = false) :
    countedExec (.absorb len d0) s =
      if len.toNat ≤ 8 ∧ s.phase = .active ∧ wordCompletes s.tcnt len = true then
        CountedMix.compress ((accumulator s.tail s.tcnt (beatValue len d0)).extractLsb' 0 64) ⟨s.mix, 0⟩
      else ⟨s.mix, 0⟩ := by
  simp [countedExec, hf, and_assoc]

/-- `FINAL` runs those of its padded word and the finalization rounds, where it is legal. -/
theorem countedExec_final {s : State} (hf : s.fault = false) :
    countedExec .final s =
      if s.phase = .active then (CountedMix.compress (paddedWord s.tail s.total) ⟨s.mix, 0⟩).finish
      else ⟨s.mix, 0⟩ := by
  simp [countedExec, hf]

/-- The mixing registers after a beat (R124). -/
theorem absorbBeat_mix (s : State) (len : BitVec 4) (d0 : Word) :
    (s.absorbBeat len d0).mix =
      if wordCompletes s.tcnt len = true then
        compressWord ((accumulator s.tail s.tcnt (beatValue len d0)).extractLsb' 0 64) s.mix
      else s.mix := by
  unfold State.absorbBeat
  simp only
  split <;> rfl

/-- The counted path ends in the mixing registers that the command leaves. -/
theorem runInstr_mix (i : Instr) (s : State) : (runInstr s i).mix = (countedExec i s).mix := by
  cases hf : s.fault with
  | true => rw [runInstr_faulted i hf, countedExec_faulted i hf]
  | false =>
    cases i with
    | init k0 k1 => rw [runInstr_init k0 k1 hf, countedExec, hf]; rfl
    | illegal op len => rw [runInstr_illegal op len hf, countedExec, hf]; rfl
    | absorb len d0 =>
      rw [countedExec_absorb len d0 hf]
      by_cases hl : len.toNat ≤ 8
      · rw [runInstr_absorb d0 hf hl]
        obtain ⟨hp, e⟩ | ⟨hp, e⟩ | ⟨hp, e⟩ := whenActive_cases s .absorbAfterFinal fun s => s.absorbBeat len d0
        · simp [e, hp]
        · cases hc : wordCompletes s.tcnt len <;> simp [e, hl, hp, hc, absorbBeat_mix]
        · simp [e, hp]
      · simp [runInstr_absorb_tooLong d0 hf hl, hl]
    | final =>
      rw [runInstr_final hf, countedExec_final hf]
      obtain ⟨hp, e⟩ | ⟨hp, e⟩ | ⟨hp, e⟩ := whenActive_cases s .finalAfterFinal State.finalize
      · simp [e, hp]
      · simp [e, hp, State.finalize, finalMix]
      · simp [e, hp]

/-- `INIT` runs no round (R90). -/
theorem roundCount_init (k0 k1 : Word) (s : State) : roundCount (.init k0 k1) s = 0 := by
  unfold roundCount countedExec
  split <;> rfl

/-- A beat runs two rounds if it completes a word (R105, R124). -/
theorem roundCount_absorb {s : State} {len : BitVec 4} (d0 : Word) (hl : len.toNat ≤ 8) (hf : s.fault = false)
    (hp : s.phase = .active) :
    roundCount (.absorb len d0) s = if 8 ≤ s.tcnt.toNat + len.toNat then 2 else 0 := by
  rw [roundCount, countedExec_absorb len d0 hf]
  by_cases completes : 8 ≤ s.tcnt.toNat + len.toNat <;> simp [hl, hp, wordCompletes, completes, cRounds]

/-- `FINAL` runs two rounds and then four (R105, R140). -/
theorem roundCount_final {s : State} (hf : s.fault = false) (hp : s.phase = .active) : roundCount .final s = 6 := by
  rw [roundCount, countedExec_final hf, if_pos hp, CountedMix.finish_rounds, CountedMix.compress_rounds]
  rfl

/-- The rounds of one sequence of commands behind another. -/
theorem roundCounts_append (s : State) (is js : List Instr) :
    roundCounts s (is ++ js) = roundCounts s is + roundCounts (runInstrs s is) js := by
  induction is generalizing s with
  | nil => exact (Nat.zero_add _).symm
  | cons i is ih =>
    have rest := ih (runInstr s i)
    rw [List.cons_append, roundCounts, roundCounts, rest, Nat.add_assoc]
    rfl

/-- Beats run two rounds for each word that the pending bytes and their message complete. -/
theorem roundCounts_beats {s : State} (hf : s.fault = false) (hp : s.phase = .active)
    {beats : List (BitVec 4 × Word)} (legal : LegalBeats beats) :
    roundCounts s (beatsInstrs beats) = 2 * ((s.tcnt.toNat + (beatsMessage beats).length) / 8) := by
  induction beats generalizing s with
  | nil =>
    have pending : s.tcnt.toNat < 8 := s.tcnt.isLt
    show 0 = 2 * ((s.tcnt.toNat + 0) / 8)
    omega
  | cons b beats ih =>
    obtain ⟨hl, legal⟩ := List.forall_mem_cons.1 legal
    obtain ⟨efault, -, ephase, -⟩ := absorbBeat_rest s b.1 b.2
    have rest := ih (efault.trans hf) (ephase.trans hp) legal
    have length : (beatsMessage (b :: beats)).length = b.1.toNat + (beatsMessage beats).length := by
      simp [beatsMessage, beatBytes]
    have pending : s.tcnt.toNat < 8 := s.tcnt.isLt
    rw [absorbBeat_tcnt] at rest
    calc roundCounts s (beatsInstrs (b :: beats))
        = roundCount (.absorb b.1 b.2) s + roundCounts (runInstr s (.absorb b.1 b.2)) (beatsInstrs beats) := rfl
      _ = (if 8 ≤ s.tcnt.toNat + b.1.toNat then 2 else 0) +
          2 * (((s.tcnt.toNat + b.1.toNat) % 8 + (beatsMessage beats).length) / 8) := by
        rw [roundCount_absorb b.2 hl hf hp, runInstr_absorb_active b.2 hl hf hp, rest]
      _ = 2 * ((s.tcnt.toNat + (beatsMessage (b :: beats)).length) / 8) := by
        rw [length]
        split <;> omega

/-- Settles O21: the counted path of each command, and the rounds of a hash as those of its beats and of `FINAL`. -/
theorem hashCostInRounds : Obligations.HashCostInRounds := by
  unfold Obligations.HashCostInRounds
  refine ⟨fun i s => ⟨_, exec_eq_next i s, runInstr_mix i s⟩, roundCount_init,
    fun len d0 s hl hf hp => roundCount_absorb d0 hl hf hp, fun s hf hp => roundCount_final hf hp, ?_⟩
  intro s k0 k1 bs hf
  obtain ⟨beats, legal, rfl, expansion, -⟩ := expandAdd_eq_beats bs
  have engine := Ingesting.construct hf k0 k1
  have ingest : roundCounts s (.init k0 k1 :: beatsInstrs beats) = 2 * ((beatsMessage beats).length / 8) := by
    rw [roundCounts, roundCount_init, runInstr_init k0 k1 hf, roundCounts_beats engine.fault engine.phase legal]
    simp [State.construct]
  have finish : roundCounts ((s.construct k0 k1).ingested (beatsMessage beats)) [.final] = 6 :=
    roundCount_final hf rfl
  rw [Pseudo.expand, expansion, roundCounts_append, ingest, runInstrs_init_beats hf k0 k1 legal, finish]
  omega

end Sys2Proof.Machine

namespace Sys2Proof.Machine

/-!
The statements on `INIT` (spec/40_construction.md) and on the function that a whole hash computes
(spec/43_finalization.md R148): what a new engine holds, what it keeps of the state before, and what its key decides.
-/

/-! ### A new engine (R90, R93) -/

/-- `INIT` on an unfaulted core constructs an engine, whatever its `phase`. -/
theorem exec_init {s : State} (hf : s.fault = false) (k0 k1 : Word) :
    exec (.init k0 k1) s = .next (s.construct k0 k1) := by
  rw [exec_eq_next, runInstr_init k0 k1 hf]

/-- Settles O14: the record update is `construct` written out, and a faulted core ignores `INIT` (R167). -/
theorem initConstructsAnEngine : Obligations.InitConstructsAnEngine := by
  unfold Obligations.InitConstructsAnEngine
  intro len k0 k1 s
  refine ⟨decode_packFields 1 len k1 k0, ?_, ?_⟩
  · exact fun hf => exec_init hf k0 k1
  · intro hf
    rw [exec_eq_next, runInstr_faulted _ hf]

/-- Of the state before, a new engine keeps `fault`, `fcause` and the host's moves, and nothing else. -/
theorem construct_forgets {s t : State} (fault : s.fault = t.fault) (k0 k1 : Word) :
    t.construct k0 k1 = { s.construct k0 k1 with fcause := t.fcause, host := t.host } :=
  State.ext_mix (mix := rfl) (tail := rfl) (tcnt := rfl) (total := rfl) (phase := rfl) (fault := fault.symm)
    (fcause := rfl) (digest := rfl) (host := rfl)

/-- Settles O15: on two unfaulted cores `INIT` constructs the same engine. -/
theorem initForgetsThePast : Obligations.InitForgetsThePast := by
  unfold Obligations.InitForgetsThePast
  intro k0 k1 s t hs ht
  rw [exec_init ht, runInstr_init k0 k1 hs, construct_forgets (hs.trans ht.symm)]

/-! ### The key corner cases (R94) -/

/-- A key half XORed into two constants cancels between them. -/
theorem xor_key_cancel (a b k : Word) : (a ^^^ k) ^^^ (b ^^^ k) = a ^^^ b := by
  rw [BitVec.xor_comm b k, BitVec.xor_assoc, ← BitVec.xor_assoc k k b, BitVec.xor_self, BitVec.zero_xor]

/-- `v0 ^ v2` after `INIT` is a constant, whatever the key (R94). -/
theorem keyedMix_v0_xor_v2 (k0 k1 : Word) : (keyedMix k0 k1).v0 ^^^ (keyedMix k0 k1).v2 = 0x1f160a001e161714 := by
  calc (keyedMix k0 k1).v0 ^^^ (keyedMix k0 k1).v2 = iv0 ^^^ iv2 := xor_key_cancel iv0 iv2 k0
    _ = 0x1f160a001e161714 := by decide

/-- And so is `v1 ^ v3`. -/
theorem keyedMix_v1_xor_v3 (k0 k1 : Word) : (keyedMix k0 k1).v1 ^^^ (keyedMix k0 k1).v3 = 0x100a160317100a1e := by
  calc (keyedMix k0 k1).v1 ^^^ (keyedMix k0 k1).v3 = iv1 ^^^ iv3 := xor_key_cancel iv1 iv3 k1
    _ = 0x100a160317100a1e := by decide

/-- Hence `v0` and `v2` are never both zero. -/
theorem keyedMix_v0_v2_nonzero (k0 k1 : Word) : ¬ ((keyedMix k0 k1).v0 = 0 ∧ (keyedMix k0 k1).v2 = 0) := by
  rintro ⟨v0, v2⟩
  have constant := keyedMix_v0_xor_v2 k0 k1
  rw [v0, v2] at constant
  exact absurd constant (by decide)

/-- The zero key leaves the constants (R94). -/
theorem keyedMix_zero : keyedMix 0 0 = ⟨iv0, iv1, iv2, iv3⟩ := by decide

/-- The key `(IV0, IV1)` clears `v0` and `v1` (R94). -/
theorem keyedMix_iv : keyedMix iv0 iv1 = ⟨0, 0, 0x1f160a001e161714, 0x100a160317100a1e⟩ := by decide

/-- The mixing registers of a new engine. -/
theorem construct_mix (s : State) (k0 k1 : Word) : (s.construct k0 k1).mix = keyedMix k0 k1 := rfl

/-- The four mixing registers read off their common value. -/
theorem registers_of_mix {s : State} {a b c d : Word} (h : s.mix = ⟨a, b, c, d⟩) :
    s.v0 = a ∧ s.v1 = b ∧ s.v2 = c ∧ s.v3 = d := by
  simpa [State.mix] using h

/-- Settles O16: the engine is `keyedMix` of the key, where the key halves cancel in `v0 ^ v2` and `v1 ^ v3`. -/
theorem everyKeyGivesANonzeroEngine : Obligations.EveryKeyGivesANonzeroEngine := by
  unfold Obligations.EveryKeyGivesANonzeroEngine
  intro k0 k1 s hf
  refine ⟨s.construct k0 k1, exec_init hf k0 k1, hf, rfl, keyedMix_v0_xor_v2 k0 k1, keyedMix_v1_xor_v3 k0 k1,
    ?_, ?_, ?_⟩
  · rintro ⟨v0, -, v2, -⟩
    exact keyedMix_v0_v2_nonzero k0 k1 ⟨v0, v2⟩
  · rintro ⟨rfl, rfl⟩
    exact registers_of_mix ((construct_mix s 0 0).trans keyedMix_zero)
  · rintro ⟨rfl, rfl⟩
    exact registers_of_mix ((construct_mix s iv0 iv1).trans keyedMix_iv)

/-! ### The function computed (R148) -/

/-- Settles O39: the beats leave the closed form of their message on the new engine, and `FINAL` its digest. -/
theorem hardwareComputesSipHash24 : Obligations.HardwareComputesSipHash24 := by
  unfold Obligations.HardwareComputesSipHash24
  intro s k0 k1 beats hf legal
  rw [runInstrs_init_beats_final hf k0 k1 legal]
  exact ⟨rfl, hf, finalize_ingested_digest s k0 k1 _⟩

end Sys2Proof.Machine

namespace Sys2Proof.Machine

/-!
The statements on the mixing round and `compressWord` (spec/41_sipround_compress.md): a rotation is undone by the
complementary one, each line of the round is one step on two registers that can be taken back, and so the round and the
compression of a word lose nothing.
-/

/-! ### Rotation (R102) -/

/-- Settles O17: an index that wraps reads the part shifted right, any other the part shifted left. -/
theorem rotationMovesEveryBit : Obligations.RotationMovesEveryBit := by
  unfold Obligations.RotationMovesEveryBit
  intro x n i _ hn hi
  rw [rotl64_eq_rotateLeft x n hn, BitVec.getLsbD_rotateLeft_of_le hn]
  by_cases wraps : 64 ≤ i + n
  · have index : (i + n) % 64 = i + n - 64 := by omega
    have source : 64 - n + (i + n - 64) = i := by omega
    have low : i + n - 64 < n := by omega
    simp [index, source, low]
  · have index : (i + n) % 64 = i + n := by omega
    have high : i + n < 64 := by omega
    simp [index, high]

/-- Two rotations that make up a whole turn bring every bit back to its place. -/
theorem rotl64_rotl64_of_add_eq (x : Word) {n k : Nat} (hn : 0 < n) (hk : 0 < k) (turn : n + k = 64) :
    rotl64 (rotl64 x n) k = x := by
  refine BitVec.eq_of_getLsbD_eq fun i hi => ?_
  have back : ((i + n) % 64 + k) % 64 = i := by omega
  calc (rotl64 (rotl64 x n) k).getLsbD i
      = (rotl64 (rotl64 x n) k).getLsbD (((i + n) % 64 + k) % 64) := by rw [back]
    _ = (rotl64 x n).getLsbD ((i + n) % 64) :=
        rotationMovesEveryBit _ k _ hk (by omega) (Nat.mod_lt _ (by decide))
    _ = x.getLsbD i := rotationMovesEveryBit x n i hn (by omega) hi

/-- The right rotation of R104 undoes the left one. -/
theorem rotr64_rotl64 (x : Word) {n : Nat} (hn : 0 < n) (h64 : n < 64) : rotr64 (rotl64 x n) n = x :=
  rotl64_rotl64_of_add_eq x hn (by omega) (by omega)

/-- And the left rotation undoes the right one. -/
theorem rotl64_rotr64 (x : Word) {n : Nat} (hn : 0 < n) (h64 : n < 64) : rotl64 (rotr64 x n) n = x :=
  rotl64_rotl64_of_add_eq x (by omega) hn (by omega)

/-! ### A line of the round: add, rotate, XOR (R103, R104) -/

/-- XORing a word twice leaves the other. -/
theorem xor_xor_self (a b : Word) : a ^^^ b ^^^ b = a := by
  rw [BitVec.xor_assoc, BitVec.xor_self, BitVec.xor_zero]

/-- What each line of R103 does to its two registers: add the second to the first, rotate the second, XOR the sum into
it. -/
def arx (n : Nat) (p : Word × Word) : Word × Word := (p.1 + p.2, rotl64 p.2 n ^^^ (p.1 + p.2))

/-- The same three steps backwards, as R104 takes them back. -/
def arxInverse (n : Nat) (p : Word × Word) : Word × Word :=
  (p.1 - rotr64 (p.2 ^^^ p.1) n, rotr64 (p.2 ^^^ p.1) n)

theorem arxInverse_arx {n : Nat} (hn : 0 < n) (h64 : n < 64) (p : Word × Word) : arxInverse n (arx n p) = p := by
  have second : rotr64 (rotl64 p.2 n ^^^ (p.1 + p.2) ^^^ (p.1 + p.2)) n = p.2 := by
    rw [xor_xor_self, rotr64_rotl64 _ hn h64]
  simp only [arxInverse, arx, second, BitVec.add_sub_cancel]

theorem arx_arxInverse {n : Nat} (hn : 0 < n) (h64 : n < 64) (p : Word × Word) : arx n (arxInverse n p) = p := by
  simp only [arx, arxInverse, BitVec.sub_add_cancel, rotl64_rotr64 _ hn h64, xor_xor_self]

/-! ### The round and its inverse (R103, R104) -/

/-- The four lines of R103; between them `v0`, and after them `v2`, turns by 32. -/
theorem sipRound_eq_arx (m : Mix) :
    sipRound m =
      let line1 := arx 13 (m.v0, m.v1)
      let line2 := arx 16 (m.v2, m.v3)
      let line3 := arx 21 (rotl64 line1.1 32, line2.2)
      let line4 := arx 17 (line2.1, line1.2)
      ⟨line3.1, line4.2, rotl64 line4.1 32, line3.2⟩ := rfl

/-- The inverse of R104 takes the four lines back, the last one first. -/
theorem sipRoundInverse_eq_arxInverse (m : Mix) :
    sipRoundInverse m =
      let line4 := arxInverse 17 (rotr64 m.v2 32, m.v1)
      let line3 := arxInverse 21 (m.v0, m.v3)
      let line2 := arxInverse 16 (line4.1, line3.2)
      let line1 := arxInverse 13 (rotr64 line3.1 32, line4.2)
      ⟨line1.1, line1.2, line2.1, line2.2⟩ := rfl

theorem sipRoundInverse_leftInverse : Function.LeftInverse sipRoundInverse sipRound := by
  intro m
  simp [sipRound_eq_arx, sipRoundInverse_eq_arxInverse, arxInverse_arx, rotr64_rotl64]

theorem sipRoundInverse_rightInverse : Function.RightInverse sipRoundInverse sipRound := by
  intro m
  simp [sipRound_eq_arx, sipRoundInverse_eq_arxInverse, arx_arxInverse, rotl64_rotr64]

/-- Settles O19: line by line, `arx` and `arxInverse` cancel, and so do the two rotations by 32. -/
theorem roundHasTheStatedInverse : Obligations.RoundHasTheStatedInverse := by
  unfold Obligations.RoundHasTheStatedInverse
  exact fun m => ⟨sipRoundInverse_leftInverse m, sipRoundInverse_rightInverse m⟩

/-! ### `compressWord` (R105, R107) -/

theorem sipRound_bijective : Function.Bijective sipRound :=
  ⟨sipRoundInverse_leftInverse.injective, sipRoundInverse_rightInverse.surjective⟩

theorem sipRounds_bijective (n : Nat) : Function.Bijective (sipRounds n) := by
  induction n with
  | zero => exact Function.bijective_id
  | succ n ih => exact ih.comp sipRound_bijective

theorem xorV3_involutive (w : Word) : Function.Involutive (Mix.xorV3 · w) := by
  intro m
  simp only [Mix.xorV3, xor_xor_self]

theorem xorV0_involutive (w : Word) : Function.Involutive (Mix.xorV0 · w) := by
  intro m
  simp only [Mix.xorV0, xor_xor_self]

/-- Settles O20: two XORs that undo themselves, with a number of rounds between them. -/
theorem compressWordIsABijection : Obligations.CompressWordIsABijection := by
  unfold Obligations.CompressWordIsABijection
  exact fun w => ((xorV0_involutive w).bijective.comp (sipRounds_bijective cRounds)).comp
    (xorV3_involutive w).bijective

/-- The fourteen steps in the two stages of R104. -/
theorem sipRound_eq_twoStage (m : Mix) : sipRound m = sipRoundTwoStage m := rfl

/-- `compressWord` runs two rounds between its two XORs (R105). -/
theorem compressWord_eq (w : Word) (m : Mix) : compressWord w m = (sipRound (sipRound (m.xorV3 w))).xorV0 w := rfl

/-- Settles O18: the two-stage form with each rotation read as the library's, and `compressWord` with its XORs spelt
out. -/
theorem roundAndCompressAsWritten : Obligations.RoundAndCompressAsWritten := by
  unfold Obligations.RoundAndCompressAsWritten
  intro v0 v1 v2 v3 m
  refine ⟨?_, compressWord_eq m ⟨v0, v1, v2, v3⟩⟩
  rw [sipRound_eq_twoStage]
  simp (disch := decide) only [sipRoundTwoStage, rotl64_eq_rotateLeft]

end Sys2Proof.Machine

namespace Sys2Proof.Machine

/-!
The statements on `ABSORB` and `add(B)` (spec/42_ingestion.md): the state a beat leaves in `phase = ACTIVE` as the spec
writes it and in the corner cases of its table, its traps in the other phases, and its agreement with `add(B)`.
-/

/-! ### The two outcomes of a beat in 64-bit words (R124) -/

/-- A beat that completes no word is ORed in above the pending bytes. -/
theorem absorbBeat_tail_of_short {s : State} {len : BitVec 4} (d0 : Word) (h : s.tcnt.toNat + len.toNat < 8) :
    (s.absorbBeat len d0).tail = s.tail ||| (beatValue len d0 <<< (8 * s.tcnt.toNat)) := by
  rw [absorbBeat_short d0 h, State.setTotal_tail, State.setTail_tail, accumulator_low_word]

/-- A beat that completes the word compresses it. -/
theorem absorbBeat_mix_of_long {s : State} {len : BitVec 4} (d0 : Word) (h : 8 ≤ s.tcnt.toNat + len.toNat) :
    (s.absorbBeat len d0).mix = compressWord (s.tail ||| (beatValue len d0 <<< (8 * s.tcnt.toNat))) s.mix := by
  rw [absorbBeat_long d0 h, State.setTotal_mix, State.setTail_mix, State.setMix_mix, accumulator_low_word]

/-- What a beat holds beyond the word it completes starts the new tail; above an empty tail there is nothing. -/
theorem absorbBeat_tail_of_long {s : State} {len : BitVec 4} (d0 : Word) (h : 8 ≤ s.tcnt.toNat + len.toNat) :
    (s.absorbBeat len d0).tail =
      if s.tcnt = 0 then 0#64 else beatValue len d0 >>> (8 * (8 - s.tcnt.toNat)) := by
  rw [absorbBeat_long d0 h, State.setTotal_tail, State.setTail_tail, accumulator_high_word]

/-- The mask clears only bytes that a shift beyond the word's end drops. -/
theorem beatValue_shiftLeft {k : Nat} {len : BitVec 4} (d0 : Word) (h : 8 ≤ k + len.toNat) :
    beatValue len d0 <<< (8 * k) = d0 <<< (8 * k) := by
  apply BitVec.eq_of_getLsbD_eq
  intro i hi
  rw [BitVec.getLsbD_shiftLeft, BitVec.getLsbD_shiftLeft, beatValue, BitVec.getLsbD_and, lowmask_bit]
  by_cases below : i < 8 * k
  · simp [below]
  · have kept : i - 8 * k < 8 * len.toNat := by omega
    have inWord : i - 8 * k < 64 := by omega
    simp [kept, inWord]

/-- No byte of a beat is left when all of them are shifted out. -/
theorem beatValue_ushiftRight_len (len : BitVec 4) (d0 : Word) : beatValue len d0 >>> (8 * len.toNat) = 0 := by
  apply BitVec.eq_of_getLsbD_eq
  intro i hi
  simp [beatValue, lowmask_bit]

/-- A beat of eight bytes uses its whole data word (R74). -/
theorem beatValue_eight (d0 : Word) : beatValue 8 d0 = d0 := and_lowmask_eight d0

/-! ### `ABSORB` in each phase (R124, R125) -/

/-- A legal beat in `phase = ACTIVE`, as the answer of `exec`. -/
theorem exec_absorb_active {s : State} {len : BitVec 4} (d0 : Word) (hl : len.toNat ≤ 8) (hf : s.fault = false)
    (hp : s.phase = .active) : exec (.absorb len d0) s = .next (s.absorbBeat len d0) := by
  rw [exec_eq_next, runInstr_absorb_active d0 hl hf hp]

/-- Settles O22: the two branches of R124, the halves of the accumulator read as truncations. -/
theorem absorbIngestsABeat : Obligations.AbsorbIngestsABeat := by
  unfold Obligations.AbsorbIngestsABeat
  intro len d0 s hl hf hp m acc v
  rw [exec_absorb_active d0 hl hf hp]
  split
  case isTrue long =>
    rw [absorbBeat_long d0 long, extract_low_word, extract_high_word, ← ofNat_toNat_len]
    rfl
  case isFalse short =>
    rw [absorbBeat_short d0 (by omega), extract_low_word, ← ofNat_toNat_len]
    rfl

/-- Settles O23: the lifecycle check raises the cause of each phase, and fault entry makes its two writes. -/
theorem absorbTrapsOutsideActive : Obligations.AbsorbTrapsOutsideActive := by
  unfold Obligations.AbsorbTrapsOutsideActive
  intro len d0 s hl hf
  rw [exec_eq_next, runInstr_absorb d0 hf hl]
  constructor
  · intro hp
    rw [whenActive_empty _ _ hp]
    rfl
  · intro hp
    rw [whenActive_done _ _ hp]
    rfl

/-- Settles O25, row by row: whether `tcnt + len` reaches 8 decides the outcome of the beat, and on an empty tail the
shifts are by nothing. -/
theorem absorbCornerCases : Obligations.AbsorbCornerCases := by
  unfold Obligations.AbsorbCornerCases
  intro len d0 s hl hf hp clean
  have tcnt := absorbBeat_tcnt s len d0
  have ht := s.tcnt.isLt
  have onEmpty (h0 : s.tcnt = 0) (m : Word) : s.tail ||| (m <<< (8 * s.tcnt.toNat)) = m := by
    rw [tail_of_tailClean_zero clean h0, h0]
    simp
  refine ⟨s.absorbBeat len d0, exec_absorb_active d0 hl hf hp, ?_, ?_, ?_, ?_, ?_, ?_, ?_⟩
  · rintro rfl
    exact absorbBeat_zero s d0
  · rintro h0 rfl
    have long : 8 ≤ s.tcnt.toNat + (8 : BitVec 4).toNat := by simp
    refine ⟨?_, ?_, BitVec.eq_of_toNat_eq ?_⟩
    · rw [absorbBeat_mix_of_long d0 long, onEmpty h0, beatValue_eight]
    · rw [absorbBeat_tail_of_long d0 long, if_pos h0]
      rfl
    · rw [tcnt, h0]
      rfl
  · intro h0 hn
    have zero : s.tcnt.toNat = 0 := by rw [h0]; rfl
    have short : s.tcnt.toNat + len.toNat < 8 := by omega
    refine ⟨absorbBeat_mix_of_short d0 short, ?_, by omega⟩
    rw [absorbBeat_tail_of_short d0 short, onEmpty h0, beatValue]
  · intro h0 hn
    have long : 8 ≤ s.tcnt.toNat + len.toNat := by omega
    refine ⟨absorbBeat_mix_of_long d0 long, ?_, BitVec.eq_of_toNat_eq ?_⟩
    · rw [absorbBeat_tail_of_long d0 long, if_neg h0, ← hn, beatValue_ushiftRight_len]
    · rw [tcnt, show s.tcnt.toNat + len.toNat = 8 by omega]
      rfl
  · intro _ hn
    have short : s.tcnt.toNat + len.toNat < 8 := by omega
    exact ⟨absorbBeat_mix_of_short d0 short, absorbBeat_tail_of_short d0 short, by omega⟩
  · intro h0 hn
    have long : 8 ≤ s.tcnt.toNat + len.toNat := by omega
    refine ⟨?_, ?_, by omega⟩
    · rw [absorbBeat_mix_of_long d0 long, beatValue_shiftLeft d0 long]
    · rw [absorbBeat_tail_of_long d0 long, if_neg h0, beatValue]
  · rintro h7 rfl
    have long : 8 ≤ s.tcnt.toNat + (8 : BitVec 4).toNat := by simp
    refine ⟨?_, BitVec.eq_of_toNat_eq ?_⟩
    · rw [absorbBeat_tail_of_long d0 long, h7, beatValue_eight]
      rfl
    · rw [tcnt, h7]
      rfl

/-! ### `ABSORB` and `add(B)` (R120, R123) -/

/-- Settles O30: an unfaulted active engine with a clean tail is one that takes message bytes. -/
theorem addIsByteAtATime : Obligations.AddIsByteAtATime := by
  unfold Obligations.AddIsByteAtATime
  intro s bs hf hp clean
  exact Ingesting.add_eq_foldl ⟨hf, hp, clean⟩ bs

/-- Settles O29: both ignore everything with `fault = 1` and make the same lifecycle check; past it, both are the bytes
one after another. -/
theorem absorbIsAddOfItsBytes : Obligations.AbsorbIsAddOfItsBytes := by
  unfold Obligations.AbsorbIsAddOfItsBytes
  intro len d0 s hl clean
  rw [exec_eq_next]
  apply congrArg Host.Outcome.next
  cases hf : s.fault with
  | true => rw [runInstr_faulted _ hf, State.add, if_pos hf]
  | false =>
    rw [runInstr_absorb d0 hf hl, State.add, hf, if_neg Bool.false_ne_true]
    have bytewise : s.absorbBeat len d0 = s.addBytes (beatBytes len d0) := by
      rw [absorbBeat_eq_foldl clean hl, addBytes_eq_foldl clean]
    exact whenActive_rel (r := Eq) _ rfl (fun _ => rfl) fun _ => bytewise

end Sys2Proof.Machine

namespace Sys2Proof.Machine

/-!
The statements on `FINAL` (spec/43_finalization.md): its effect and its traps, the padded word byte by byte and as a
function of the message, and the digest at the native widths.
-/

/-! ### The padded word (R141, R149) -/

/-- A byte widened to a word is the word's byte 0, and no other. -/
theorem byteOf_setWidth (b : Byte) (j : Nat) : byteOf (b.setWidth 64) j = if j = 0 then b else 0 := by
  apply byteOf_eq_of_bits
  intro i hi
  split
  case isTrue first =>
    have inWord : i < 64 := by omega
    simp [first, inWord, BitVec.getLsbD_eq_getElem hi]
  case isFalse later =>
    have beyond : b.getLsbD (8 * j + i) = false := BitVec.getLsbD_of_ge b _ (by omega)
    simp [beyond]

/-- The low byte of a word is its number modulo 256. -/
theorem lowByte_eq_ofNat (w : Word) : w.extractLsb' 0 8 = BitVec.ofNat 8 w.toNat := by
  apply BitVec.eq_of_toNat_eq
  simp

/-- The padded word has the bytes of the tail, with the length byte ORed into byte 7. -/
theorem byteOf_paddedWord (tail total : Word) {j : Nat} (hj : j < 8) :
    byteOf (paddedWord tail total) j = byteOf tail j ||| if j = 7 then BitVec.ofNat 8 total.toNat else 0 := by
  have place : byteOf ((total.extractLsb' 0 8).setWidth 64 <<< 56) j =
      if j < 7 then 0 else byteOf ((total.extractLsb' 0 8).setWidth 64) (j - 7) := byteOf_shiftLeft _ 7 hj
  rw [paddedWord, byteOf_or, place, byteOf_setWidth, lowByte_eq_ofNat]
  obtain below | rfl : j < 7 ∨ j = 7 := by omega
  · rw [if_pos below, if_neg (by omega : j ≠ 7)]
  · rfl

/-- Byte 7 is free for the length byte where the tail has none there. -/
theorem byteOf_paddedWord_seven {tail : Word} (free : byteOf tail 7 = 0) (total : Word) :
    byteOf (paddedWord tail total) 7 = BitVec.ofNat 8 total.toNat := by
  rw [byteOf_paddedWord tail total (by decide), free, if_pos rfl]
  exact BitVec.zero_or

/-- A clean tail has no bit where a byte shifted to the top has one. -/
theorem tailClean_and_top {s : State} (clean : TailClean s) (b : Word) : s.tail &&& (b <<< 56) = 0 := by
  have ht := s.tcnt.isLt
  apply BitVec.eq_of_getLsbD_eq
  intro i hi
  rw [BitVec.getLsbD_and, BitVec.getLsbD_shiftLeft]
  by_cases top : i < 56
  · simp [top]
  · simp [tailClean_bit clean (by omega : 8 * s.tcnt.toNat ≤ i)]

/-- Settles O35: byte by byte on a clean tail; and beats after `INIT` leave the tail and the count of their message. -/
theorem paddedWordIsTailAndLength : Obligations.PaddedWordIsTailAndLength := by
  unfold Obligations.PaddedWordIsTailAndLength
  constructor
  · intro s clean
    have ht := s.tcnt.isLt
    refine ⟨?_, ?_, tailClean_and_top clean _⟩
    · exact byteOf_paddedWord_seven (byteOf_tail_of_clean clean (by omega)) s.total
    · intro j hj
      have noLength : byteOf (paddedWord s.tail s.total) j = byteOf s.tail j := by
        rw [byteOf_paddedWord _ _ (by omega), if_neg (by omega : j ≠ 7)]
        exact BitVec.or_zero
      rw [noLength]
      split
      case isTrue => rfl
      case isFalse above => exact byteOf_tail_of_clean clean (by omega)
  · intro s k0 k1 beats hf legal
    rw [runInstrs_init_beats hf k0 k1 legal]
    exact paddedWord_ingested s k0 k1 (beatsMessage beats)

/-- The padded word of a message is that of its leftover bytes and its length (R141). -/
theorem messagePadding_eq_paddedWord (bs : List Byte) :
    messagePadding bs = paddedWord (packBytes (tailBytes bs)) (BitVec.ofNat 64 bs.length) := by
  have left : (tailBytes bs).length < 8 := by rw [tailBytes_length]; omega
  have count : (BitVec.ofNat 64 bs.length).toNat % 256 = bs.length % 256 := by rw [BitVec.toNat_ofNat]; omega
  rw [paddedWord_packBytes left, count, messagePadding]

/-- Its top byte is the message's length modulo 256, since at most seven bytes are left over. -/
theorem byteOf_messagePadding_seven (bs : List Byte) : (byteOf (messagePadding bs) 7).toNat = bs.length % 256 := by
  have left : (tailBytes bs).length ≤ 7 := by rw [tailBytes_length]; omega
  have free : byteOf (packBytes (tailBytes bs)) 7 = 0 := by
    rw [byteOf_packBytes _ (by decide), List.getD_eq_default _ _ left]
  rw [messagePadding_eq_paddedWord, byteOf_paddedWord_seven free, BitVec.toNat_ofNat, BitVec.toNat_ofNat]
  omega

/-- A message has a whole word for each eight of its bytes. -/
theorem messageWords_length (bs : List Byte) : (messageWords bs).length = bs.length / 8 := by
  rw [messageWords, List.length_map, List.length_range]

/-- Settles O36: the length byte tells lengths apart that differ modulo 256; lengths that agree there are at least 256
bytes apart, which makes a difference of 32 words. -/
theorem lengthByteSeparatesTrailingZeros : Obligations.LengthByteSeparatesTrailingZeros := by
  unfold Obligations.LengthByteSeparatesTrailingZeros
  intro bs n positive longer
  have length : longer.length = bs.length + n := by rw [List.length_append, List.length_replicate]
  constructor
  · intro lengthBytes same
    apply lengthBytes
    rw [← byteOf_messagePadding_seven, same, byteOf_messagePadding_seven]
  · intro lengthBytes
    rw [messageWords_length, messageWords_length]
    omega

/-! ### `FINAL` in each phase (R140, R145) -/

/-- Settles O33: the record update is `finalize` written out, with the length byte as a number. -/
theorem finalProducesTheDigest : Obligations.FinalProducesTheDigest := by
  unfold Obligations.FinalProducesTheDigest
  intro s hf hp b c r
  have padded : paddedWord s.tail s.total = b := by rw [paddedWord, lowByte_word]
  have mixing : finalMix s.tail s.total s.mix = r := by rw [finalMix, padded]; rfl
  rw [exec_eq_next, runInstr_final hf, whenActive_active _ _ hp, State.finalize, mixing]
  rfl

/-- Settles O34: the lifecycle check raises the cause of each phase, and fault entry makes its two writes. -/
theorem finalTrapsOutsideActive : Obligations.FinalTrapsOutsideActive := by
  unfold Obligations.FinalTrapsOutsideActive
  intro s hf
  rw [exec_eq_next, runInstr_final hf]
  constructor
  · intro hp
    rw [whenActive_empty _ _ hp]
    rfl
  · intro hp
    rw [whenActive_done _ _ hp]
    rfl

/-! ### The native digest (R146, R147) -/

/-- The fold as a number: the upper half of the digest XOR the lower. -/
theorem fold32_toNat (d : Word) : (fold32 d).toNat = (d.toNat / 2 ^ 32) ^^^ (d.toNat % 2 ^ 32) := by
  have hd := d.isLt
  have upper : (d.extractLsb' 32 32).toNat = d.toNat / 2 ^ 32 := by
    rw [BitVec.extractLsb'_toNat, Nat.shiftRight_eq_div_pow, Nat.mod_eq_of_lt (by omega)]
  have lower : (d.extractLsb' 0 32).toNat = d.toNat % 2 ^ 32 := by
    rw [BitVec.extractLsb'_toNat, Nat.shiftRight_zero]
  rw [fold32, BitVec.toNat_xor, upper, lower]

/-- Settles O37: at 64 bits the digest itself, at 32 its fold; the example is one fold evaluated. -/
theorem nativeDigestIsSized : Obligations.NativeDigestIsSized := by
  unfold Obligations.NativeDigestIsSized
  intro s
  refine ⟨rfl, fold32_toNat s.digest, ?_⟩
  intro h
  rw [digestNative, digestNative, h]
  exact ⟨rfl, rfl⟩

/-- Settles O38: the library's two's complement reading, and the examples evaluated on their digests. -/
theorem nativeDigestReadsSigned : Obligations.NativeDigestReadsSigned := by
  unfold Obligations.NativeDigestReadsSigned
  intro w s
  refine ⟨?_, ?_, ?_⟩
  · rw [nativeSigned, BitVec.toInt_eq_toNat_cond]
    push_cast
    rfl
  · intro h
    rw [nativeSigned, nativeSigned, digestNative, digestNative, h]
    decide
  · intro h
    rw [nativeSigned, digestNative, h]
    decide

end Sys2Proof.Machine

namespace Sys2Proof.Machine

/-!
The statements on faults (spec/60_exceptions.md): a step and the command it runs, what a command that raises a fault
writes, which cause a well-formed command reports, what a faulted core and a finished engine ignore, and what the causes
depend on.
-/

/-! ### A step and its command (R160, R167) -/

/-- An answer of `exec` is the state that the command leaves. -/
theorem exec_inversion {i : Instr} {s t : State} (h : exec i s = .next t) : t = runInstr s i :=
  (Host.Outcome.next.inj ((exec_eq_next i s).symm.trans h)).symm

/-- Settles O9: `step` takes the word off the host's moves and hands it to the decoder. -/
theorem stepRunsTheDecodedCommand : Obligations.StepRunsTheDecodedCommand := by
  unfold Obligations.StepRunsTheDecodedCommand
  rintro s w rest i hs rfl
  have taken : s.takeMove = some (.command w, s.setHost rest) := by rw [State.takeMove, hs]
  rw [step, taken]
  rfl

/-- Settles O10: each of the three things a step can do ends in a next state, and with no move pending it is idle. -/
theorem stepAlwaysAnswersNext : Obligations.StepAlwaysAnswersNext := by
  unfold Obligations.StepAlwaysAnswersNext
  constructor
  · intro s
    obtain ⟨-, e⟩ | ⟨rest, -, e⟩ | ⟨w, rest, -, e⟩ := step_cases s <;> exact ⟨_, e⟩
  · intro s idle
    obtain ⟨-, e⟩ | ⟨rest, hs, -⟩ | ⟨w, rest, hs, -⟩ := step_cases s
    · exact e
    · exact nomatch idle.symm.trans hs
    · exact nomatch idle.symm.trans hs

/-- Settles O41: `runInstr_faulted` for one command, for the command of a stepped word, and along a run of words. -/
theorem faultedCoreIgnoresEveryCommand : Obligations.FaultedCoreIgnoresEveryCommand := by
  unfold Obligations.FaultedCoreIgnoresEveryCommand
  intro s hf
  refine ⟨?_, ?_, ?_⟩
  · intro i
    rw [exec_eq_next, runInstr_faulted i hf]
  · intro w rest hs
    rw [step_move s _ rest hs, runMove_command, runWord_faulted w hf]
    rfl
  · intro ws
    rw [runWords_eq_runInstrs, runInstrs_faulted _ s hf]

/-! ### Fault entry and its cause (R161, R163, R165) -/

/-- A command that sets `fault` has raised one of the four causes: the three effects leave `fault` as it was. -/
theorem runInstr_raised {s : State} {i : Instr} (hf : s.fault = false) (raised : (runInstr s i).fault = true) :
    ∃ c, (c = .illegalCmd ∨ c = .notInitialised ∨ c = .absorbAfterFinal ∨ c = .finalAfterFinal) ∧
      runInstr s i = s.raiseFault c := by
  have unraised {t : State} (e : runInstr s i = t) (same : t.fault = s.fault) : False := by
    simp [e, same, hf] at raised
  obtain ⟨faulted, -⟩ | ⟨-, c, hc, e⟩ | ⟨-, k0, k1, -, e⟩ | ⟨-, -, len, d0, -, -, e⟩ | ⟨-, -, -, e⟩ :=
    runInstr_cases s i
  · simp [hf] at faulted
  · exact ⟨c, hc, e⟩
  · exact (unraised e rfl).elim
  · exact (unraised e (absorbBeat_rest s len d0).1).elim
  · exact (unraised e rfl).elim

/-- A well-formed command raises the tabulated cause, or raises nothing where there is none. -/
theorem runInstr_causeOf {s : State} {i : Instr} (wf : i.wf = true) (hf : s.fault = false) :
    (∃ c, causeOf i s.phase = some c ∧ runInstr s i = s.raiseFault c) ∨
    (causeOf i s.phase = none ∧ (runInstr s i).fault = false ∧ (runInstr s i).fcause = s.fcause) := by
  have decoded : decode (encode i) = i := decodeOfEncodeIsTheCommand i wf
  have run : runWord s (encode i) = runInstr s i := by rw [runWord, decoded]
  have outcome := runWord_cases (encode i) hf
  rw [decoded, run] at outcome
  obtain ⟨c, hc, e⟩ | ⟨k0, k1, rfl, e⟩ | ⟨hp, len, d0, rfl, -, e⟩ | ⟨hp, rfl, e⟩ := outcome
  · exact .inl ⟨c, hc, e⟩
  · exact .inr ⟨rfl, by rw [e]; exact ⟨hf, rfl⟩⟩
  · obtain ⟨fault, fcause, -, -⟩ := absorbBeat_rest s len d0
    exact .inr ⟨by rw [hp]; rfl, by rw [e]; exact ⟨fault.trans hf, fcause⟩⟩
  · exact .inr ⟨by rw [hp]; rfl, by rw [e]; exact ⟨hf, rfl⟩⟩

/-- Settles O42: the state is `raiseFault` of a cause, and that of a well-formed command is the tabulated one. -/
theorem faultsArePrecise : Obligations.FaultsArePrecise := by
  unfold Obligations.FaultsArePrecise
  intro i s t hf h raised
  obtain rfl := exec_inversion h
  obtain ⟨c, hc, e⟩ := runInstr_raised hf raised
  refine ⟨?precise, ?cause, ?tabulated, ?invalid, ?shown⟩
  case precise => rw [e]; rfl
  case cause =>
    rw [e, State.raiseFault_fcause]
    obtain rfl | rfl | rfl | rfl := hc <;> decide
  case tabulated =>
    intro wf
    obtain ⟨c', hc', e'⟩ | ⟨-, unraised, -⟩ := runInstr_causeOf wf hf
    · exact ⟨c', hc', by rw [e', State.raiseFault_fcause]⟩
    · simp [raised] at unraised
  case invalid => simp [digestValid, raised]
  case shown => rw [e]; rfl

/-- Settles O43, by `runInstr_causeOf`: the tabulated cause is raised, or there is none and nothing is. -/
theorem causesAsTabulated : Obligations.CausesAsTabulated := by
  unfold Obligations.CausesAsTabulated
  intro i s wf hf
  refine ⟨_, exec_eq_next i s, ?_⟩
  obtain ⟨c, hc, e⟩ | ⟨hc, fault, fcause⟩ := runInstr_causeOf wf hf <;> rw [hc]
  · exact e
  · exact ⟨fault, fcause⟩

/-! ### The finished engine (R169) -/

/-- Settles O47: in `DONE` the commands other than `INIT` are ignored or raise a fault, since the effects of `ABSORB` and
`FINAL` need `phase = ACTIVE`. -/
theorem doneEngineIsLeftAlone : Obligations.DoneEngineIsLeftAlone := by
  unfold Obligations.DoneEngineIsLeftAlone
  intro i s t done h notInit
  obtain rfl := exec_inversion h
  have same : SameData s s := ⟨rfl, rfl, rfl, rfl, rfl, rfl, rfl, rfl, rfl⟩
  obtain ⟨-, e⟩ | ⟨-, c, -, e⟩ | ⟨-, k0, k1, init, -⟩ | ⟨-, active, -⟩ | ⟨-, active, -⟩ := runInstr_cases s i
  · rw [e]; exact same
  · rw [e]; exact same
  · exact absurd init (notInit k0 k1)
  · exact nomatch done.symm.trans active
  · exact nomatch done.symm.trans active

/-! ### What the causes depend on (R173) -/

/-- The two states agree on `phase`, `fault` and `fcause`. -/
def SameLifecycle (s t : State) : Prop := s.phase = t.phase ∧ s.fault = t.fault ∧ s.fcause = t.fcause

/-- `FINAL` ends in `DONE` and raises nothing (R140). -/
theorem finalize_lifecycle (s : State) :
    s.finalize.phase = .done ∧ s.finalize.fault = s.fault ∧ s.finalize.fcause = s.fcause := ⟨rfl, rfl, rfl⟩

/-- Commands of one shape keep two states in one lifecycle, whatever their keys and data. -/
theorem SameLifecycle.runInstr {s t : State} (h : SameLifecycle s t) {i j : Instr} (shape : SameShape i j) :
    SameLifecycle (runInstr s i) (runInstr t j) := by
  obtain ⟨phase, fault, fcause⟩ := h
  apply runInstr_rel shape (phase := phase) (fault := fault)
  case same => exact ⟨phase, fault, fcause⟩
  case raise => exact fun c => ⟨phase, rfl, rfl⟩
  case init => exact fun _ _ _ _ _ _ => ⟨rfl, fault, fcause⟩
  case absorb =>
    intro _ len d0 d0' _ _
    obtain ⟨sfault, sfcause, sphase, -⟩ := absorbBeat_rest s len d0
    obtain ⟨tfault, tfcause, tphase, -⟩ := absorbBeat_rest t len d0'
    exact ⟨by rw [sphase, tphase, phase], by rw [sfault, tfault, fault], by rw [sfcause, tfcause, fcause]⟩
  case final =>
    intro _ _
    obtain ⟨sphase, sfault, sfcause⟩ := finalize_lifecycle s
    obtain ⟨tphase, tfault, tfcause⟩ := finalize_lifecycle t
    exact ⟨sphase.trans tphase.symm, by rw [sfault, tfault, fault], by rw [sfcause, tfcause, fcause]⟩

/-- Two runs of words of the same opcodes and lengths stay in one lifecycle. -/
theorem SameLifecycle.runWords {ws us : List CmdWord}
    (words : List.Forall₂ (fun w u => opField w = opField u ∧ lenField w = lenField u) ws us)
    {s t : State} (h : SameLifecycle s t) : SameLifecycle (runWords s ws) (runWords t us) := by
  induction words generalizing s t with
  | nil => exact h
  | cons hwu _ ih =>
    obtain ⟨hop, hlen⟩ := hwu
    exact ih (h.runInstr (decode_sameShape hop hlen))

/-- Settles O51: every pair of words of one opcode and one length keeps the relation `SameLifecycle`. -/
theorem noDataValueCausesAFault : Obligations.NoDataValueCausesAFault := by
  unfold Obligations.NoDataValueCausesAFault
  intro ws us s t phase fault fcause words
  exact SameLifecycle.runWords words ⟨phase, fault, fcause⟩

/-! ### The host is never blocked (R198) -/

/-- A faulted core is busy with no word (R167, R198). -/
theorem busyTime_faulted (c : Config) (w : CmdWord) {s : State} (hf : s.fault = true) : busyTime c w s = 0 := by
  rw [busyTime, if_pos hf]

/-- A busy cycle that leaves the core busy leaves its registers alone. -/
theorem busyCycle_cases (f : InFlight) (p : PortState) (pins : Pins) :
    (busyCycle f p pins).busy = none ∨ (busyCycle f p pins).core = p.core := by
  rw [busyCycle]
  cases f.left
  · exact .inl rfl
  · exact .inr rfl

/-- A ready cycle leaves the core ready unless it accepts a word with a busy time, whose writes are still to come. -/
theorem readyCycle_cases (c : Config) {p : PortState} (idle : p.busy = none) (pins : Pins) :
    (readyCycle c p pins).busy = none ∨
    (busyTime c pins.cmdWord p.core ≠ 0 ∧ (readyCycle c p pins).core = p.core) := by
  rw [readyCycle]
  split
  · cases busyTime c pins.cmdWord p.core with
    | zero => exact .inl idle
    | succ n => exact .inr ⟨Nat.succ_ne_zero n, rfl⟩
  · exact .inl idle

/-- Settles O59: a cycle that ends busy has not changed the registers, and those of a core that was busy, or that accepts a
word with a busy time, are not faulted. -/
theorem faultNeverBlocksTheHost : Obligations.FaultNeverBlocksTheHost := by
  unfold Obligations.FaultNeverBlocksTheHost
  refine ⟨fun _ => rfl, fun c pins p q inv h faulted => ?_⟩
  rw [cmdReady_iff] at inv ⊢
  obtain ⟨-, e⟩ | ⟨-, -, e⟩ | ⟨-, -, ⟨f, busy, e⟩ | ⟨idle, e⟩⟩ := cycle_cases c pins p <;>
    rw [e] at h <;> cases h
  · rfl
  · obtain ready | core := busyCycle_cases f p pins
    · exact ready
    · exact nomatch busy.symm.trans (inv (core ▸ faulted))
  · obtain ready | ⟨busyTime, core⟩ := readyCycle_cases c idle pins
    · exact ready
    · exact absurd (busyTime_faulted c pins.cmdWord (core ▸ faulted)) busyTime

end Sys2Proof.Machine

namespace Sys2Proof.Machine

/-!
The statements on reset and the handshake (spec/70_reset_and_hazards.md): one equation for each case of a clock cycle,
from which acceptance and completion of a command, reset and the refusal of a changed offer follow.
-/

/-! ### What a clock cycle does, case by case (R191, R198, R199) -/

section Cycle

variable {c : Config} {pins : Pins} {p : PortState}

theorem cycle_of_reset (reset : resetApplied c pins = true) : cycle c pins p = .next (resetCycle p pins) :=
  if_pos reset

theorem cycle_of_broken_offer (noReset : resetApplied c pins = false) (broken : breaksOffer p pins = true) :
    cycle c pins p = .refused .offerChanged := by
  simp [cycle, noReset, broken]

theorem cycle_of_busy {f : InFlight} (noReset : resetApplied c pins = false) (kept : breaksOffer p pins = false)
    (busy : p.busy = some f) : cycle c pins p = .next (busyCycle f p pins) := by
  simp [cycle, noReset, kept, busy]

theorem cycle_of_idle (noReset : resetApplied c pins = false) (kept : breaksOffer p pins = false)
    (idle : p.busy = none) : cycle c pins p = .next (readyCycle c p pins) := by
  simp [cycle, noReset, kept, idle]

theorem cycles_cons_of_next {ps : List Pins} {q : PortState} (first : cycle c pins p = .next q) :
    cycles c (pins :: ps) p = cycles c ps q := by
  rw [cycles, first]

end Cycle

/-! ### The host's duty (R199) -/

/-- A word is offered when it stands on the port with `cmd_valid = 1`. -/
theorem offered_eq_some_iff (pins : Pins) (w : CmdWord) :
    pins.offered = some w ↔ pins.cmdValid = true ∧ pins.cmdWord = w := by
  simp [Pins.offered]

/-- The duty is broken when an offer pending is not the one made in the cycle. -/
theorem breaksOffer_iff (p : PortState) (pins : Pins) :
    breaksOffer p pins = true ↔ ∃ w, p.offer = some w ∧ pins.offered ≠ some w := by
  cases h : p.offer with
  | none => simp [breaksOffer, h]
  | some w => simp [breaksOffer, h, @eq_comm _ (some w)]

/-- Settles O60: an offer withdrawn or changed is not the one made in the cycle, so the duty is broken. -/
theorem changedOfferIsRefused : Obligations.ChangedOfferIsRefused := by
  unfold Obligations.ChangedOfferIsRefused
  intro c pins p w noReset pending changed
  have notOffered : pins.offered ≠ some w := by
    rw [Ne, offered_eq_some_iff]
    rintro ⟨valid, same⟩
    obtain withdrawn | other := changed
    · exact nomatch withdrawn.symm.trans valid
    · exact other same
  exact cycle_of_broken_offer noReset ((breaksOffer_iff p pins).2 ⟨w, pending, notOffered⟩)

/-! ### Reset (R190, R191) -/

/-- Reset writes every register and leaves the host's moves. -/
theorem applyReset_eq (s : State) : s.applyReset = { State.reset with host := s.host } := rfl

/-- Settles O13: a step makes the move at the head, and the reset move writes every register. -/
theorem resetMoveGivesTheResetState : Obligations.ResetMoveGivesTheResetState := by
  unfold Obligations.ResetMoveGivesTheResetState
  intro s rest h
  rw [step_move s .reset rest h, runMove, applyReset_eq, State.setHost]

/-- Settles O58: no other case of the cycle is looked at when reset is applied. -/
theorem resetWinsOverEverything : Obligations.ResetWinsOverEverything := by
  unfold Obligations.ResetWinsOverEverything
  intro c pins p reset
  exact ⟨resetCycle p pins, cycle_of_reset reset, rfl, applyReset_eq p.core⟩

/-! ### Acceptance and completion of a command (R198, R204) -/

/-- A ready cycle leaves no offer pending: there was none, or it is accepted. -/
theorem readyCycle_offer (c : Config) (p : PortState) (pins : Pins) : (readyCycle c p pins).offer = none := by
  rw [readyCycle]
  split
  · cases busyTime c pins.cmdWord p.core <;> rfl
  · rfl

/-- A word with a busy time of 0 is run in the cycle that accepts it. -/
theorem readyCycle_of_busyTime_zero {c : Config} {p : PortState} {pins : Pins} (valid : pins.cmdValid = true)
    (time : busyTime c pins.cmdWord p.core = 0) :
    (readyCycle c p pins).busy = p.busy ∧ (readyCycle c p pins).core = runWord p.core pins.cmdWord := by
  simp [readyCycle, valid, time]

/-- A word with a busy time is in progress after the cycle that accepts it and has written nothing yet. -/
theorem readyCycle_of_busyTime_succ {c : Config} {p : PortState} {pins : Pins} {n : Nat} (valid : pins.cmdValid = true)
    (time : busyTime c pins.cmdWord p.core = n + 1) :
    (readyCycle c p pins).busy = some ⟨pins.cmdWord, n⟩ ∧ (readyCycle c p pins).core = p.core := by
  simp [readyCycle, valid, time]

/-- A core with a command in progress is not ready. -/
theorem cmdReady_of_busy {p : PortState} {f : InFlight} (busy : p.busy = some f) : p.cmdReady = false := by
  rw [PortState.cmdReady, busy, Option.isNone_some]

/-- Settles O56: the word offered keeps the duty, so the cycle is a ready cycle, and the busy time says which. -/
theorem acceptanceStartsTheCommand : Obligations.AcceptanceStartsTheCommand := by
  unfold Obligations.AcceptanceStartsTheCommand
  intro c pins p noReset ready valid duty
  have idle : p.busy = none := (cmdReady_iff p).1 ready
  have offered : pins.offered = some pins.cmdWord := (offered_eq_some_iff pins _).2 ⟨valid, rfl⟩
  have kept : breaksOffer p pins = false := by
    rw [Bool.eq_false_iff, Ne, breaksOffer_iff]
    rintro ⟨w, pending, notOffered⟩
    obtain noOffer | same := duty
    · exact nomatch noOffer.symm.trans pending
    · exact notOffered (offered.trans (same.symm.trans pending))
  refine ⟨readyCycle c p pins, cycle_of_idle noReset kept idle, readyCycle_offer c p pins, fun time => ?_,
    fun n time => ?_⟩
  · obtain ⟨busy, core⟩ := readyCycle_of_busyTime_zero valid time
    exact ⟨(cmdReady_iff _).2 (busy.trans idle), core⟩
  · obtain ⟨busy, core⟩ := readyCycle_of_busyTime_succ valid time
    exact ⟨cmdReady_of_busy busy, busy, core⟩

/-- Settles O57, by induction on the cycles: the last busy cycle makes the writes, and the ones before it count down. -/
theorem acceptedCommandCompletes : Obligations.AcceptedCommandCompletes := by
  unfold Obligations.AcceptedCommandCompletes
  intro c ps
  induction ps with
  | nil =>
    intro p f busy _ _
    exact ⟨fun len => absurd len (Nat.zero_ne_add_one _), fun _ => ⟨p, rfl, cmdReady_of_busy busy, rfl⟩⟩
  | cons pins ps ih =>
    rintro p ⟨w, left⟩ busy noReset duty
    obtain ⟨noResetFirst, noResetLater⟩ := List.forall_mem_cons.1 noReset
    obtain ⟨kept, dutyLater⟩ := (offersKept_cons p pins ps).1 duty
    rw [cycles_cons_of_next (cycle_of_busy noResetFirst kept busy), List.length_cons]
    cases left with
    | zero =>
      refine ⟨fun len => ?_, fun len => absurd len (Nat.not_succ_le_zero _)⟩
      obtain rfl := List.eq_nil_of_length_eq_zero (Nat.succ.inj len)
      exact ⟨busyCycle ⟨w, 0⟩ p pins, rfl, rfl, rfl⟩
    | succ n =>
      obtain ⟨completes, busyMeanwhile⟩ :=
        ih (busyCycle ⟨w, n + 1⟩ p pins) ⟨w, n⟩ rfl noResetLater dutyLater
      exact ⟨fun len => completes (Nat.succ.inj len), fun len => busyMeanwhile (Nat.le_of_succ_le_succ len)⟩

end Sys2Proof.Machine

namespace Sys2Proof.Machine

/-!
PROOFS. The term that no word decodes to, an `ABSORB` of more than 8 bytes (notes/assumptions/3.md; R77).
-/

/-- Settles O24: past the `fault = 1` check, a beat longer than 8 bytes is fault entry before any lifecycle check, and
fault entry makes its two writes. -/
theorem absorbTooLongRaisesIllegalCmd : Obligations.AbsorbTooLongRaisesIllegalCmd := by
  unfold Obligations.AbsorbTooLongRaisesIllegalCmd
  intro len d0 s tooLong hf
  rw [exec_eq_next, runInstr_absorb_tooLong d0 hf (Nat.not_le.2 tooLong)]
  rfl

end Sys2Proof.Machine
